-- ==== Sys2Proof/Word.lean ====
section
/-! DEFINITION. The word types of the machine: what the spec treats as bits. All values are unsigned (spec/00_scope.md R7). -/

namespace Sys2Proof

/-- A memory cell, a `V` register, a timer: 8 bits (spec/10_state.md R20, R26, R27, R28). -/
abbrev Byte := BitVec 8

/-- The width of `pc`, `I` and a stack entry: 16 bits (spec/10_state.md R23, R24, R25). -/
abbrev Addr := BitVec 16

/-- A fetched instruction word: 16 bits (spec/30_encoding.md R70). -/
abbrev Opcode := BitVec 16

/-- A register field `x` or `y`: 4 bits, all 16 values legal (spec/30_encoding.md R71, R73). -/
abbrev Reg := BitVec 4

/-- A key code: 4 bits, since `press` and `release` take a 4-bit code (spec/10_state.md R32). -/
abbrev Key := BitVec 4

/-- A display column, 0 to 63 (spec/10_state.md R30). -/
abbrev Col := Fin 64

/-- A display row, 0 to 31 (spec/10_state.md R30). -/
abbrev Row := Fin 32

end Sys2Proof
end

