-- ==== Sys2Proof/Config.lean ====
section
/-! DEFINITION. What an implementation fixes (the parameters of spec/00_scope.md R6 that the spec asks a model to keep as
configuration fields) and the one free value. The values this hardware has stand in Machine/Params.lean. -/

namespace Sys2Proof

/-- `QUIRK_SHL_FLAG` (spec/42_load_alu.md R131): what `SHL Vx` leaves in `V[0xF]`. -/
inductive ShlFlag where
  /-- the whole old byte, the reference behaviour -/
  | fullByte
  /-- bit 7 of the old byte, the conventional behaviour -/
  | msb
  deriving DecidableEq, Repr

/-- `QUIRK_BCD` (spec/43_index_memory.md R143): where `LD B, Vx` writes its three digits. -/
inductive BcdMode where
  /-- all three at `I`, one after the other, the reference behaviour -/
  | sameAddress
  /-- at `I`, `I + 1`, `I + 2`, the conventional behaviour -/
  | threeAddress
  deriving DecidableEq, Repr

/-- `DRAW_EDGE` (spec/44_display.md R151): the policy for coordinates beyond the display. The spec admits one value. -/
inductive DrawEdge where
  /-- each pixel on its own, columns modulo 64 and rows modulo 32 -/
  | wrap
  deriving DecidableEq, Repr

/-- `KEY_TIEBREAK` (spec/10_state.md R32): which of several pressed keys `LD Vx, K` takes. The spec admits one value. -/
inductive KeyTiebreak where
  /-- the most recently inserted key -/
  | lastInserted
  deriving DecidableEq, Repr

/-- The names of the 34 operations (spec/30_encoding.md R75), without operands: what a row of the opcode map stands for. -/
inductive Operation where
  | cls | ret | jp | call | seImm | sneImm | seReg | ldImm | addImm
  | ldReg | orReg | andReg | xorReg | addReg | subReg | shr | subnReg | shl
  | sneReg | ldI | jpV0 | rnd | drw | skp | sknp | ldVxDt | ldVxK
  | ldDt | ldSt | addI | ldF | ldB | storeRegs | loadRegs
  deriving DecidableEq, Repr

/-- A row of R75: an opcode `w` selects it exactly if `w &&& mask = pattern`. -/
structure OpcodeRow where
  pattern : Opcode
  mask : Opcode
  deriving DecidableEq, Repr

/-- `OPCODE_MAP` (spec/00_scope.md R6, D1): which words stand for which operation, and where the operand fields lie, each given by
its lowest bit (spec/30_encoding.md R71). The widths of the fields are their types. -/
structure OpcodeMap where
  rows : List (Operation × OpcodeRow)
  xAt : Nat
  yAt : Nat
  nAt : Nat
  nnAt : Nat
  nnnAt : Nat
  deriving DecidableEq, Repr

/-- The parameters of spec/00_scope.md R6 that are not fixed by the source. -/
structure Config where
  /-- `OPCODE_MAP` (spec/30_encoding.md R75) -/
  opcodeMap : OpcodeMap
  /-- `LOAD_OFFSET` (spec/20_memory.md R55) -/
  loadOffset : Addr
  /-- `GLYPH_TABLE` (spec/20_memory.md R57) -/
  glyphTable : List Byte
  /-- `STACK_DEPTH` (spec/10_state.md R25): `none` is the unbounded stack -/
  stackDepth : Option Nat
  shlFlag : ShlFlag
  bcd : BcdMode
  drawEdge : DrawEdge
  keyTiebreak : KeyTiebreak
  /-- `RESET_V`, `RESET_I`, `RESET_DT` (spec/10_state.md R45) -/
  resetV : Byte
  resetI : Addr
  resetDt : Byte
  deriving DecidableEq, Repr

/-- The free byte `draw8()` of `RND` (spec/42_load_alu.md R132, spec/10_state.md R34), one for each number of draws made before
it. It has no body: whatever is proved about one run holds for every sequence of draws. That it is one function, so that two runs give
the same byte to draws of the same number, is the model's DESIGN CHOICE, no rule of the spec (log 17). -/
opaque Config.freeByte : Nat → Byte

end Sys2Proof
end

