-- ==== Sys2Proof/Machine/Flags.lean ====
section
/-! DEFINITION. Every flag computation: the values that instructions leave in `V[0xF]` (spec/10_state.md R21). -/

namespace Sys2Proof.Machine

/-- A condition as a flag byte: 1 or 0. -/
def flagByte (c : Bool) : Byte := if c then 1 else 0

/-- The carry of `ADD Vx, Vy`: the unsigned sum exceeds 255 (spec/42_load_alu.md R126). -/
def carryFlag (a b : Byte) : Byte := flagByte (255 < a.toNat + b.toNat)

/-- No borrow in `a - b`: the minuend is at least the subtrahend (spec/42_load_alu.md R127, R129, R133). -/
def noBorrowFlag (a b : Byte) : Byte := flagByte (b.toNat ≤ a.toNat)

/-- The bit that `SHR` shifts out (spec/42_load_alu.md R128). -/
def shrFlag (a : Byte) : Byte := a &&& 1

/-- What `SHL` leaves in `V[0xF]` under the parameter `QUIRK_SHL_FLAG` (spec/42_load_alu.md R131). -/
def shlFlagByte (q : ShlFlag) (a : Byte) : Byte :=
  match q with
  | .fullByte => a &&& 0xFF
  | .msb => flagByte (a.getLsbD 7)

end Sys2Proof.Machine
end

