-- ==== Sys2Proof/Machine/Params.lean ====
section
/-! DEFINITION. The parameter values of this hardware: the spec's defaults (spec/00_scope.md R6). Log 26. -/

namespace Sys2Proof.Machine

/-- `GLYPH_TABLE`: the 16 glyphs of 5 bytes, digit 0 first (spec/20_memory.md R57). The bytes are the spec's decision D3,
from general knowledge: UNVERIFIED, log 3. -/
def glyphTable : List Byte :=
  [0xF0, 0x90, 0x90, 0x90, 0xF0] ++ [0x20, 0x60, 0x20, 0x20, 0x70] ++
  [0xF0, 0x10, 0xF0, 0x80, 0xF0] ++ [0xF0, 0x10, 0xF0, 0x10, 0xF0] ++
  [0x90, 0x90, 0xF0, 0x10, 0x10] ++ [0xF0, 0x80, 0xF0, 0x10, 0xF0] ++
  [0xF0, 0x80, 0xF0, 0x90, 0xF0] ++ [0xF0, 0x10, 0x20, 0x40, 0x40] ++
  [0xF0, 0x90, 0xF0, 0x90, 0xF0] ++ [0xF0, 0x90, 0xF0, 0x10, 0xF0] ++
  [0xF0, 0x90, 0xF0, 0x90, 0x90] ++ [0xE0, 0x90, 0xE0, 0x90, 0xE0] ++
  [0xF0, 0x80, 0x80, 0x80, 0xF0] ++ [0xE0, 0x90, 0x90, 0x90, 0xE0] ++
  [0xF0, 0x80, 0xF0, 0x80, 0xF0] ++ [0xF0, 0x80, 0xF0, 0x80, 0x80]

/-- The 34 rows of spec/30_encoding.md R75 in the table's order. -/
def standardRows : List (Operation × OpcodeRow) :=
  [(.cls, ⟨0x00E0, 0xFFFF⟩), (.ret, ⟨0x00EE, 0xFFFF⟩), (.jp, ⟨0x1000, 0xF000⟩), (.call, ⟨0x2000, 0xF000⟩),
   (.seImm, ⟨0x3000, 0xF000⟩), (.sneImm, ⟨0x4000, 0xF000⟩), (.seReg, ⟨0x5000, 0xF00F⟩), (.ldImm, ⟨0x6000, 0xF000⟩),
   (.addImm, ⟨0x7000, 0xF000⟩)] ++
  [(.ldReg, ⟨0x8000, 0xF00F⟩), (.orReg, ⟨0x8001, 0xF00F⟩), (.andReg, ⟨0x8002, 0xF00F⟩), (.xorReg, ⟨0x8003, 0xF00F⟩),
   (.addReg, ⟨0x8004, 0xF00F⟩), (.subReg, ⟨0x8005, 0xF00F⟩), (.shr, ⟨0x8006, 0xF00F⟩), (.subnReg, ⟨0x8007, 0xF00F⟩),
   (.shl, ⟨0x800E, 0xF00F⟩)] ++
  [(.sneReg, ⟨0x9000, 0xF00F⟩), (.ldI, ⟨0xA000, 0xF000⟩), (.jpV0, ⟨0xB000, 0xF000⟩), (.rnd, ⟨0xC000, 0xF000⟩),
   (.drw, ⟨0xD000, 0xF000⟩), (.skp, ⟨0xE09E, 0xF0FF⟩), (.sknp, ⟨0xE0A1, 0xF0FF⟩)] ++
  [(.ldVxDt, ⟨0xF007, 0xF0FF⟩), (.ldVxK, ⟨0xF00A, 0xF0FF⟩), (.ldDt, ⟨0xF015, 0xF0FF⟩), (.ldSt, ⟨0xF018, 0xF0FF⟩),
   (.addI, ⟨0xF01E, 0xF0FF⟩), (.ldF, ⟨0xF029, 0xF0FF⟩), (.ldB, ⟨0xF033, 0xF0FF⟩), (.storeRegs, ⟨0xF055, 0xF0FF⟩),
   (.loadRegs, ⟨0xF065, 0xF0FF⟩)]

/-- The standard opcode map: the rows of R75 and the field positions of R71. The spec's decision D1, from general knowledge:
UNVERIFIED, log 1. -/
def standardMap : OpcodeMap where
  rows := standardRows
  xAt := 8
  yAt := 4
  nAt := 0
  nnAt := 0
  nnnAt := 0

/-- The parameters with the defaults of R6. `LOAD_OFFSET` = 0x200 is the spec's decision D2 (UNVERIFIED, log 2);
`QUIRK_SHL_FLAG` and `QUIRK_BCD` have the reference behaviour (D9, D10; logs 8 and 9); the stack is unbounded (D17, log 14). -/
def params : Config where
  opcodeMap := standardMap
  loadOffset := 0x200
  glyphTable := glyphTable
  stackDepth := none
  shlFlag := .fullByte
  bcd := .sameAddress
  drawEdge := .wrap
  keyTiebreak := .lastInserted
  resetV := 0
  resetI := 0
  resetDt := 0

end Sys2Proof.Machine
end

