-- ==== Sys2Proof/Syntax.lean ====
section
/-! DEFINITION. The 34 instructions of spec/30_encoding.md R75 (spec/opcode_table.json), one constructor per row, in the
table's order. Operands are the opcode's fields (R71): registers `x` and `y`, a byte `nn`, a 12-bit address `nnn`, a 4-bit
count `n`. -/

namespace Sys2Proof

/-- One constructor per row of the opcode table. The width of each field is its type, so every term is an instruction. -/
inductive Instr where
  /-- `CLS`, 00E0 (R150) -/
  | cls
  /-- `RET`, 00EE (R100) -/
  | ret
  /-- `JP addr`, 1nnn (R101) -/
  | jp (nnn : BitVec 12)
  /-- `CALL addr`, 2nnn (R102) -/
  | call (nnn : BitVec 12)
  /-- `SE Vx, nn`, 3xnn (R110) -/
  | seImm (x : Reg) (nn : Byte)
  /-- `SNE Vx, nn`, 4xnn (R111) -/
  | sneImm (x : Reg) (nn : Byte)
  /-- `SE Vx, Vy`, 5xy0 (R112) -/
  | seReg (x y : Reg)
  /-- `LD Vx, nn`, 6xnn (R120) -/
  | ldImm (x : Reg) (nn : Byte)
  /-- `ADD Vx, nn`, 7xnn (R121) -/
  | addImm (x : Reg) (nn : Byte)
  /-- `LD Vx, Vy`, 8xy0 (R122) -/
  | ldReg (x y : Reg)
  /-- `OR Vx, Vy`, 8xy1 (R123) -/
  | orReg (x y : Reg)
  /-- `AND Vx, Vy`, 8xy2 (R124) -/
  | andReg (x y : Reg)
  /-- `XOR Vx, Vy`, 8xy3 (R125) -/
  | xorReg (x y : Reg)
  /-- `ADD Vx, Vy`, 8xy4 (R126) -/
  | addReg (x y : Reg)
  /-- `SUB Vx, Vy`, 8xy5 (R127) -/
  | subReg (x y : Reg)
  /-- `SHR Vx`, 8xy6 (R128); `y` is a don't-care field (R76), kept so that no bit of the word is lost -/
  | shr (x y : Reg)
  /-- `SUBN Vx, Vy`, 8xy7 (R129) -/
  | subnReg (x y : Reg)
  /-- `SHL Vx`, 8xyE (R131); `y` is a don't-care field (R76), kept so that no bit of the word is lost -/
  | shl (x y : Reg)
  /-- `SNE Vx, Vy`, 9xy0 (R113) -/
  | sneReg (x y : Reg)
  /-- `LD I, addr`, Annn (R140) -/
  | ldI (nnn : BitVec 12)
  /-- `JP V0, addr`, Bnnn (R103) -/
  | jpV0 (nnn : BitVec 12)
  /-- `RND Vx, nn`, Cxnn (R132) -/
  | rnd (x : Reg) (nn : Byte)
  /-- `DRW Vx, Vy, n`, Dxyn (R151) -/
  | drw (x y : Reg) (n : BitVec 4)
  /-- `SKP Vx`, Ex9E (R160) -/
  | skp (x : Reg)
  /-- `SKNP Vx`, ExA1 (R161) -/
  | sknp (x : Reg)
  /-- `LD Vx, DT`, Fx07 (R162) -/
  | ldVxDt (x : Reg)
  /-- `LD Vx, K`, Fx0A (R163) -/
  | ldVxK (x : Reg)
  /-- `LD DT, Vx`, Fx15 (R164) -/
  | ldDt (x : Reg)
  /-- `LD ST, Vx`, Fx18 (R165) -/
  | ldSt (x : Reg)
  /-- `ADD I, Vx`, Fx1E (R141) -/
  | addI (x : Reg)
  /-- `LD F, Vx`, Fx29 (R142) -/
  | ldF (x : Reg)
  /-- `LD B, Vx`, Fx33 (R143) -/
  | ldB (x : Reg)
  /-- `LD [I], Vx`, Fx55 (R144) -/
  | storeRegs (x : Reg)
  /-- `LD Vx, [I]`, Fx65 (R145) -/
  | loadRegs (x : Reg)
  deriving DecidableEq, Repr

end Sys2Proof
end

