-- ==== Sys2Proof/Decode.lean ====
section
/-! DEFINITION. Decoding (spec/30_encoding.md R71 to R78) by an opcode map, a parameter, and after it encoding in the standard
map, written from the same tables. The bit patterns are the spec's decision D1, from general knowledge: UNVERIFIED, log 1. -/

namespace Sys2Proof

/-! ### Fields of an opcode (R71) -/

/-- `op`, bits 15:12. -/
def fieldOp (w : Opcode) : BitVec 4 := w.extractLsb' 12 4

/-- `x`, bits 11:8. -/
def fieldX (w : Opcode) : Reg := w.extractLsb' 8 4

/-- `y`, bits 7:4. -/
def fieldY (w : Opcode) : Reg := w.extractLsb' 4 4

/-- `n`, bits 3:0. -/
def fieldN (w : Opcode) : BitVec 4 := w.extractLsb' 0 4

/-- `nn`, bits 7:0. -/
def fieldNN (w : Opcode) : Byte := w.extractLsb' 0 8

/-- `nnn`, bits 11:0. -/
def fieldNNN (w : Opcode) : BitVec 12 := w.extractLsb' 0 12

/-- The opcode of two consecutive bytes, big-endian: the byte at the lower address is the high byte (spec/20_memory.md R52). -/
def joinBytes (hi lo : Byte) : Opcode := hi ++ lo

/-- The two bytes of an opcode in memory order (R72: the first byte holds bits 15 to 8). -/
def splitBytes (w : Opcode) : List Byte := [w.extractLsb' 8 8, w.extractLsb' 0 8]

/-! ### Decode by an opcode map (R75) -/

/-- An opcode selects a row (R75). -/
def OpcodeRow.selects (r : OpcodeRow) (w : Opcode) : Bool := w &&& r.mask == r.pattern

/-- The instruction of an operation, its operands read from the fields of an opcode where the map says they lie (R71). -/
def instrOf (m : OpcodeMap) (w : Opcode) (o : Operation) : Instr :=
  let x : Reg := w.extractLsb' m.xAt 4
  let y : Reg := w.extractLsb' m.yAt 4
  let n : BitVec 4 := w.extractLsb' m.nAt 4
  let nn : Byte := w.extractLsb' m.nnAt 8
  let nnn : BitVec 12 := w.extractLsb' m.nnnAt 12
  match o with
  | .cls => .cls
  | .ret => .ret
  | .jp => .jp nnn
  | .call => .call nnn
  | .seImm => .seImm x nn
  | .sneImm => .sneImm x nn
  | .seReg => .seReg x y
  | .ldImm => .ldImm x nn
  | .addImm => .addImm x nn
  | .ldReg => .ldReg x y
  | .orReg => .orReg x y
  | .andReg => .andReg x y
  | .xorReg => .xorReg x y
  | .addReg => .addReg x y
  | .subReg => .subReg x y
  | .shr => .shr x y
  | .subnReg => .subnReg x y
  | .shl => .shl x y
  | .sneReg => .sneReg x y
  | .ldI => .ldI nnn
  | .jpV0 => .jpV0 nnn
  | .rnd => .rnd x nn
  | .drw => .drw x y n
  | .skp => .skp x
  | .sknp => .sknp x
  | .ldVxDt => .ldVxDt x
  | .ldVxK => .ldVxK x
  | .ldDt => .ldDt x
  | .ldSt => .ldSt x
  | .addI => .addI x
  | .ldF => .ldF x
  | .ldB => .ldB x
  | .storeRegs => .storeRegs x
  | .loadRegs => .loadRegs x

/-- The instruction an opcode stands for under a map: of the first row it selects, or none if it matches no row (R75, R77). A pure
function of the map and the 16 bits. -/
def decodeBy (m : OpcodeMap) (w : Opcode) : Option Instr :=
  match m.rows.find? fun r => r.2.selects w with
  | some r => some (instrOf m w r.1)
  | none => none

/-- The instruction an opcode stands for under this hardware's `OPCODE_MAP`. -/
def decodeWord (w : Opcode) : Option Instr := decodeBy Machine.params.opcodeMap w

/-! ### Decode by levels (R74) -/

/-- Second level for `op = 0x0`: the whole opcode must be 00E0 or 00EE; every other 0nnn is invalid (R78). -/
def decodeFixed (w : Opcode) : Option Instr :=
  if w = 0x00E0#16 then some .cls
  else if w = 0x00EE#16 then some .ret
  else none

/-- Second level for `op = 0x8`, on `n`. -/
def decodeAlu (w : Opcode) : Option Instr :=
  match fieldN w with
  | 0x0#4 => some (.ldReg (fieldX w) (fieldY w))
  | 0x1#4 => some (.orReg (fieldX w) (fieldY w))
  | 0x2#4 => some (.andReg (fieldX w) (fieldY w))
  | 0x3#4 => some (.xorReg (fieldX w) (fieldY w))
  | 0x4#4 => some (.addReg (fieldX w) (fieldY w))
  | 0x5#4 => some (.subReg (fieldX w) (fieldY w))
  | 0x6#4 => some (.shr (fieldX w) (fieldY w))
  | 0x7#4 => some (.subnReg (fieldX w) (fieldY w))
  | 0xE#4 => some (.shl (fieldX w) (fieldY w))
  | _ => none

/-- Second level for `op = 0xE`, on `nn`. -/
def decodeKey (w : Opcode) : Option Instr :=
  match fieldNN w with
  | 0x9E#8 => some (.skp (fieldX w))
  | 0xA1#8 => some (.sknp (fieldX w))
  | _ => none

/-- Second level for `op = 0xF`, on `nn`. -/
def decodeMisc (w : Opcode) : Option Instr :=
  match fieldNN w with
  | 0x07#8 => some (.ldVxDt (fieldX w))
  | 0x0A#8 => some (.ldVxK (fieldX w))
  | 0x15#8 => some (.ldDt (fieldX w))
  | 0x18#8 => some (.ldSt (fieldX w))
  | 0x1E#8 => some (.addI (fieldX w))
  | 0x29#8 => some (.ldF (fieldX w))
  | 0x33#8 => some (.ldB (fieldX w))
  | 0x55#8 => some (.storeRegs (fieldX w))
  | 0x65#8 => some (.loadRegs (fieldX w))
  | _ => none

/-- Decode as the procedure of R74, on the standard encoding: the first level on `op`, then a second level. R74 says that it is
equivalent to the map of R75; an obligation says so of `decodeWord`. -/
def decodeLevels (w : Opcode) : Option Instr :=
  match fieldOp w with
  | 0x0#4 => decodeFixed w
  | 0x1#4 => some (.jp (fieldNNN w))
  | 0x2#4 => some (.call (fieldNNN w))
  | 0x3#4 => some (.seImm (fieldX w) (fieldNN w))
  | 0x4#4 => some (.sneImm (fieldX w) (fieldNN w))
  | 0x5#4 => if fieldN w = 0x0#4 then some (.seReg (fieldX w) (fieldY w)) else none
  | 0x6#4 => some (.ldImm (fieldX w) (fieldNN w))
  | 0x7#4 => some (.addImm (fieldX w) (fieldNN w))
  | 0x8#4 => decodeAlu w
  | 0x9#4 => if fieldN w = 0x0#4 then some (.sneReg (fieldX w) (fieldY w)) else none
  | 0xA#4 => some (.ldI (fieldNNN w))
  | 0xB#4 => some (.jpV0 (fieldNNN w))
  | 0xC#4 => some (.rnd (fieldX w) (fieldNN w))
  | 0xD#4 => some (.drw (fieldX w) (fieldY w) (fieldN w))
  | 0xE#4 => decodeKey w
  | 0xF#4 => decodeMisc w
  -- no other value of four bits
  | _ => none

/-! ### Bytes -/

/-- Why a list of bytes gives no instruction. -/
inductive DecodeError where
  /-- the opcode matches no row of the table (R77) -/
  | invalidOpcode (opcode : Opcode)
  /-- fewer than the two bytes every instruction has (R70) -/
  | truncated (bytes : List Byte)
  deriving DecidableEq, Repr

/-- Decode the instruction at the head of a list of bytes, with the rest of the list; total, rejecting by name. -/
def decode (bytes : List Byte) : Except DecodeError (Instr × List Byte) :=
  match bytes with
  | hi :: lo :: rest =>
    match decodeWord (joinBytes hi lo) with
    | some i => .ok (i, rest)
    | none => .error (.invalidOpcode (joinBytes hi lo))
  | short => .error (.truncated short)

/-- The bytes of an instruction given as the opcode table numbers its bits: `nbits` bits of `w`, every bit above them 0, one
16-bit word, high byte at the lower address (log 30). -/
def tableBytes (nbits w : Nat) : List Byte := splitBytes (BitVec.ofNat 16 (w % 2 ^ nbits))

/-- What the decoder reads from an instruction whose bits are `w`, numbered as spec/opcode_table.json numbers them. -/
def decodeTableWord (nbits w : Nat) : Option Instr :=
  match decode (tableBytes nbits w) with
  | .ok (i, _) => some i
  | .error _ => none

/-! ### Encode (R72, R75) -/

/-- Format NNN: `op`, then a 12-bit address. -/
def wordNNN (op : BitVec 4) (nnn : BitVec 12) : Opcode := op ++ nnn

/-- Format XNN (and format X, whose low byte is the sub-opcode): `op`, `x`, then a byte. -/
def wordXNN (op : BitVec 4) (x : Reg) (nn : Byte) : Opcode := op ++ x ++ nn

/-- Formats XY and XYN: `op`, `x`, `y`, then four bits. -/
def wordXYN (op : BitVec 4) (x y : Reg) (n : BitVec 4) : Opcode := op ++ x ++ y ++ n

/-- The opcode of an instruction (R75). -/
def encode (i : Instr) : Opcode :=
  match i with
  | .cls => 0x00E0#16
  | .ret => 0x00EE#16
  | .jp nnn => wordNNN 0x1#4 nnn
  | .call nnn => wordNNN 0x2#4 nnn
  | .seImm x nn => wordXNN 0x3#4 x nn
  | .sneImm x nn => wordXNN 0x4#4 x nn
  | .seReg x y => wordXYN 0x5#4 x y 0x0#4
  | .ldImm x nn => wordXNN 0x6#4 x nn
  | .addImm x nn => wordXNN 0x7#4 x nn
  | .ldReg x y => wordXYN 0x8#4 x y 0x0#4
  | .orReg x y => wordXYN 0x8#4 x y 0x1#4
  | .andReg x y => wordXYN 0x8#4 x y 0x2#4
  | .xorReg x y => wordXYN 0x8#4 x y 0x3#4
  | .addReg x y => wordXYN 0x8#4 x y 0x4#4
  | .subReg x y => wordXYN 0x8#4 x y 0x5#4
  | .shr x y => wordXYN 0x8#4 x y 0x6#4
  | .subnReg x y => wordXYN 0x8#4 x y 0x7#4
  | .shl x y => wordXYN 0x8#4 x y 0xE#4
  | .sneReg x y => wordXYN 0x9#4 x y 0x0#4
  | .ldI nnn => wordNNN 0xA#4 nnn
  | .jpV0 nnn => wordNNN 0xB#4 nnn
  | .rnd x nn => wordXNN 0xC#4 x nn
  | .drw x y n => wordXYN 0xD#4 x y n
  | .skp x => wordXNN 0xE#4 x 0x9E#8
  | .sknp x => wordXNN 0xE#4 x 0xA1#8
  | .ldVxDt x => wordXNN 0xF#4 x 0x07#8
  | .ldVxK x => wordXNN 0xF#4 x 0x0A#8
  | .ldDt x => wordXNN 0xF#4 x 0x15#8
  | .ldSt x => wordXNN 0xF#4 x 0x18#8
  | .addI x => wordXNN 0xF#4 x 0x1E#8
  | .ldF x => wordXNN 0xF#4 x 0x29#8
  | .ldB x => wordXNN 0xF#4 x 0x33#8
  | .storeRegs x => wordXNN 0xF#4 x 0x55#8
  | .loadRegs x => wordXNN 0xF#4 x 0x65#8

/-- The bytes of an instruction in memory order. -/
def encodeBytes (i : Instr) : List Byte := splitBytes (encode i)

/-! ### The rows of the opcode map (R75) -/

/-- The row of R75 that an instruction is an instance of. -/
def rowOf (i : Instr) : OpcodeRow :=
  match i with
  | .cls => ⟨0x00E0, 0xFFFF⟩
  | .ret => ⟨0x00EE, 0xFFFF⟩
  | .jp _ => ⟨0x1000, 0xF000⟩
  | .call _ => ⟨0x2000, 0xF000⟩
  | .seImm _ _ => ⟨0x3000, 0xF000⟩
  | .sneImm _ _ => ⟨0x4000, 0xF000⟩
  | .seReg _ _ => ⟨0x5000, 0xF00F⟩
  | .ldImm _ _ => ⟨0x6000, 0xF000⟩
  | .addImm _ _ => ⟨0x7000, 0xF000⟩
  | .ldReg _ _ => ⟨0x8000, 0xF00F⟩
  | .orReg _ _ => ⟨0x8001, 0xF00F⟩
  | .andReg _ _ => ⟨0x8002, 0xF00F⟩
  | .xorReg _ _ => ⟨0x8003, 0xF00F⟩
  | .addReg _ _ => ⟨0x8004, 0xF00F⟩
  | .subReg _ _ => ⟨0x8005, 0xF00F⟩
  | .shr _ _ => ⟨0x8006, 0xF00F⟩
  | .subnReg _ _ => ⟨0x8007, 0xF00F⟩
  | .shl _ _ => ⟨0x800E, 0xF00F⟩
  | .sneReg _ _ => ⟨0x9000, 0xF00F⟩
  | .ldI _ => ⟨0xA000, 0xF000⟩
  | .jpV0 _ => ⟨0xB000, 0xF000⟩
  | .rnd _ _ => ⟨0xC000, 0xF000⟩
  | .drw _ _ _ => ⟨0xD000, 0xF000⟩
  | .skp _ => ⟨0xE09E, 0xF0FF⟩
  | .sknp _ => ⟨0xE0A1, 0xF0FF⟩
  | .ldVxDt _ => ⟨0xF007, 0xF0FF⟩
  | .ldVxK _ => ⟨0xF00A, 0xF0FF⟩
  | .ldDt _ => ⟨0xF015, 0xF0FF⟩
  | .ldSt _ => ⟨0xF018, 0xF0FF⟩
  | .addI _ => ⟨0xF01E, 0xF0FF⟩
  | .ldF _ => ⟨0xF029, 0xF0FF⟩
  | .ldB _ => ⟨0xF033, 0xF0FF⟩
  | .storeRegs _ => ⟨0xF055, 0xF0FF⟩
  | .loadRegs _ => ⟨0xF065, 0xF0FF⟩

/-- The 34 rows of R75 in the table's order. -/
def opcodeRows : List OpcodeRow := Machine.params.opcodeMap.rows.map Prod.snd

end Sys2Proof
end

