-- ==== Sys2Proof/Machine/State.lean ====
section
/-! DEFINITION. The state of the core as plain data (spec/10_state.md R35), the reasons a command can stop, and the state
right after construction (R46). -/

namespace Sys2Proof.Machine

/-- Memory: the cells of the 4096-byte store that differ from their reset byte, addresses strictly rising (`Memory.wf` in
Machine/Ops.lean). An unlisted address reads as its reset byte (`resetByte`). -/
abbrev Memory := List Host.Cell

/-- The display: 64 columns of 32 one-bit cells, a lit cell is `true` (spec/10_state.md R30). Log 29. -/
abbrev Display := Vector (Vector Bool 32) 64

/-- The complete state (spec/10_state.md R35: "A model needs exactly these fields and no other"), and one field of the
model's own, `draws`. -/
structure State where
  /-- `V[0]` to `V[15]` (R20) -/
  v : Vector Byte 16
  /-- the address register `I` (R23) -/
  i : Addr
  /-- the program counter (R24) -/
  pc : Addr
  /-- the call stack of saved program counters, top first (R25; log 14) -/
  stack : List Addr
  /-- the delay timer `DT` (R26) -/
  dt : Byte
  /-- the speaker countdown `ST` (R27) -/
  st : Byte
  /-- the flag `sounding` (R27) -/
  sounding : Bool
  /-- `mem[0..4095]` (R28) -/
  mem : Memory
  /-- `display[0..63][0..31]` (R30) -/
  display : Display
  /-- the flag `dirty` (R31) -/
  dirty : Bool
  /-- the pressed keys, oldest first (R32) -/
  keys : List Key
  /-- the model's own: how many free bytes `RND` has drawn (R34, D24); states with equal counters draw the same byte, DESIGN CHOICE,
  log 17 -/
  draws : Nat
  deriving DecidableEq, Repr

/-- The four raises of a `step` (spec/60_exceptions.md R174). All are safe: the source gives no further behaviour, and the
state is as before the step (R176). Logs 7, 13, 14, 16. -/
inductive Fault where
  /-- raised at decode of any step whose opcode matches no row (R170); the source's own failure; safe -/
  | invalidOpcode (opcode : Opcode)
  /-- raised at fetch, and by `DRW`, `LD B`, `LD [I], Vx`, `LD Vx, [I]`, with the first offending byte address (R171); safe -/
  | addressOutOfRange (address : Nat)
  /-- raised by `RET` on an empty stack (R172); safe -/
  | stackUnderflow
  /-- raised by `CALL` on a full stack of finite depth (R173); safe -/
  | stackOverflow
  deriving DecidableEq, Repr

/-- Why a command is turned away without any effect. -/
inductive Refusal where
  /-- raised by an arm of `exec` whose instruction has no meaning yet: no arm is left so; safe -/
  | notModelled (mnemonic : String)
  /-- raised by the host command `loadProgram` when the image does not fit (spec/70_reset_and_hazards.md R203); safe. The spec
  names no payload: that the refusal carries the image's length is the model's own DESIGN CHOICE, log 23 -/
  | outOfBounds (length : Nat)
  deriving DecidableEq, Repr

/-- What a step or a command answers. -/
abbrev Result := Host.Outcome State Fault Refusal

/-- The cells that differ between two tables of bytes laid from the same address. -/
def cellsWhereDiffer (a : Nat) (bytes base : List Byte) : Memory :=
  match bytes, base with
  | b :: bs, d :: ds => if b = d then cellsWhereDiffer (a + 1) bs ds else (a, b) :: cellsWhereDiffer (a + 1) bs ds
  | _, _ => []

/-- The state at construction under any values of the parameters and with a given memory, which is the state after `reset` with no
key pressed (spec/10_state.md R45, R46; logs 4, 5, 6). `draws` starts at 0: DESIGN CHOICE, log 17. -/
def State.resetWith (c : Config) (m : Memory) : State where
  v := Vector.replicate 16 c.resetV
  i := c.resetI
  pc := c.loadOffset
  stack := []
  dt := c.resetDt
  st := 0
  sounding := false
  mem := m
  display := Vector.replicate 64 (Vector.replicate 32 false)
  dirty := true
  keys := []
  draws := 0

/-- The state at construction under any values of the parameters: memory holds their glyph table at 0 to 79 (R56), whose bytes are
listed where they differ from this hardware's (log 24). -/
def State.resetAt (c : Config) : State := State.resetWith c (cellsWhereDiffer 0 c.glyphTable params.glyphTable)

/-- The state at construction of this hardware, with nothing listed in memory: `State.resetAt params` (`State.resetAt_params` in
Laws/Variants.lean). -/
def State.reset : State := State.resetWith params []

end Sys2Proof.Machine
end

