-- ==== Sys2Proof/Machine/Ops.lean ====
section
/-! DEFINITION. The named operations over registers, memory, stack, display, keyboard and timers: the primitives of
spec/00_scope.md R10, and raising an exception. -/

namespace Sys2Proof.Machine

/-! ### Raising an exception -/

/-- Raise an exception: the one way a step ends abnormally (spec/60_exceptions.md R177). There is no trap entry: no vector, no
saved register, no mode change; the raise is the result of the command and the state stays as it was before it (R176), so the
outcome carries the reason alone. There is no return from it (R178). Log 16. -/
def raise (f : Fault) : Result := .fault f

/-! ### Registers -/

/-- `V[r]` (spec/10_state.md R20). -/
def reg (s : State) (r : Reg) : Byte := s.v[r.toNat]'r.isLt

/-- `V[r] <- b` (spec/10_state.md R20). -/
def setReg (r : Reg) (b : Byte) (s : State) : State := { s with v := s.v.set r.toNat b r.isLt }

/-- The flag register `V[0xF]` (spec/10_state.md R21). -/
def flagReg : Reg := 0xF#4

/-- `I <- a` (spec/10_state.md R23). -/
def setIndex (a : Addr) (s : State) : State := { s with i := a }

/-- `DT <- b` (spec/10_state.md R26). -/
def setDelay (b : Byte) (s : State) : State := { s with dt := b }

/-- `ST <- b` (spec/10_state.md R27); `sounding` follows only at the next tick. -/
def setSpeaker (b : Byte) (s : State) : State := { s with st := b }

/-! ### Program counter (R24: all arithmetic modulo 65536) -/

/-- `pc <- a`. -/
def jumpTo (a : Addr) (s : State) : State := { s with pc := a }

/-- `pc <- (pc + 2) mod 65536`, the end of every instruction that is no branch. -/
def advance (s : State) : State := { s with pc := s.pc + 2 }

/-- The end of a skip: 4 when its condition holds, 2 when it does not (spec/41_skips.md R114). -/
def skipIf (c : Bool) (s : State) : State := { s with pc := s.pc + (if c then 4 else 2) }

/-! ### Call stack (R25) -/

/-- The stack replaced. -/
def setStack (as : List Addr) (s : State) : State := { s with stack := as }

/-- `Push(a)` on a stack of the given depth (`none` is unbounded): StackOverflow when it is full (spec/60_exceptions.md R173). -/
def push (depth : Option Nat) (a : Addr) (s : State) : Except Fault State :=
  match depth with
  | none => .ok (setStack (a :: s.stack) s)
  | some n => if n ≤ s.stack.length then .error .stackOverflow else .ok (setStack (a :: s.stack) s)

/-- `Pop()`: the top entry and the state without it; StackUnderflow when there is none (spec/60_exceptions.md R172). -/
def pop (s : State) : Except Fault (Addr × State) :=
  match s.stack with
  | [] => .error .stackUnderflow
  | a :: rest => .ok (a, setStack rest s)

/-! ### Memory: one canonical list of cells -/

/-- The number of bytes of memory (spec/10_state.md R28). -/
def memSize : Nat := 4096

/-- What an unlisted address reads as: the byte it has at reset, the glyph table of this hardware at 0 to 79, else 0
(spec/10_state.md R45, spec/20_memory.md R50; logs 3, 5). Under another `GLYPH_TABLE` the bytes that differ are listed from reset on
(`State.resetAt`), so every memory can be written down whatever the parameters are (log 24). -/
def resetByte (a : Nat) : Byte := params.glyphTable.getD a 0

/-- The byte at an address. -/
def Memory.read (m : Memory) (a : Nat) : Byte :=
  match m with
  | [] => resetByte a
  | (b, w) :: rest => if a = b then w else Memory.read rest a

/-- The memory without any entry for an address. -/
def Memory.erase (m : Memory) (a : Nat) : Memory := List.filter (fun c => c.1 != a) m

/-- The memory with an entry put before the first larger address. -/
def Memory.insert (m : Memory) (a : Nat) (b : Byte) : Memory :=
  match m with
  | [] => [(a, b)]
  | c :: rest => if a < c.1 then (a, b) :: c :: rest else c :: Memory.insert rest a b

/-- Store a byte: the entry is left out when the byte is what the address reads as without one. -/
def Memory.write (m : Memory) (a : Nat) (b : Byte) : Memory :=
  if b = resetByte a then Memory.erase m a else Memory.insert (Memory.erase m a) a b

/-- The canonical form: addresses strictly rising and inside the 4096 bytes, no entry equal to its reset byte. -/
abbrev Memory.wf (m : Memory) : Prop :=
  List.Pairwise (fun c d : Host.Cell => c.1 < d.1) m ∧ ∀ c ∈ m, c.1 < memSize ∧ c.2 ≠ resetByte c.1

/-- The byte at an address of the state's memory, with no range check. -/
def readByte (s : State) (a : Nat) : Byte := Memory.read s.mem a

/-- Store one byte, with no range check. -/
def writeByte (a : Nat) (b : Byte) (s : State) : State := { s with mem := Memory.write s.mem a b }

/-- Store bytes at ascending addresses, lowest first (spec/20_memory.md R66), with no range check. -/
def writeBytes (a : Nat) (bs : List Byte) (s : State) : State :=
  match bs with
  | [] => s
  | b :: rest => writeBytes (a + 1) rest (writeByte a b s)

/-- The range check of `len` bytes from `a`: no fault for no byte; else AddressOutOfRange with the first address above 4095
(spec/20_memory.md R54). Addresses do not wrap. -/
def rangeFault (a len : Nat) : Option Fault :=
  if len ≠ 0 ∧ memSize < a + len then some (.addressOutOfRange (max a memSize)) else none

/-- `MemRead` of `len` bytes in ascending order, checked before the first (spec/20_memory.md R51, R54, R66). -/
def memRead (s : State) (a len : Nat) : Except Fault (List Byte) :=
  match rangeFault a len with
  | some f => .error f
  | none => .ok ((List.range len).map fun k => readByte s (a + k))

/-- `MemWrite` of bytes at ascending addresses, checked before the first (spec/20_memory.md R53, R54, R66). -/
def memWrite (a : Nat) (bs : List Byte) (s : State) : Except Fault State :=
  match rangeFault a bs.length with
  | some f => .error f
  | none => .ok (writeBytes a bs s)

/-- The fetch `MemRead(pc, 2)`: big-endian, at any pc, odd ones included (spec/20_memory.md R52, R54, R59). -/
def fetch (s : State) : Except Fault Opcode :=
  match rangeFault s.pc.toNat 2 with
  | some f => .error f
  | none => .ok (joinBytes (readByte s s.pc.toNat) (readByte s (s.pc.toNat + 1)))

/-! ### Moving registers to and from memory -/

/-- The bytes of `V[0]` to `V[x]`, lowest register first (spec/43_index_memory.md R144). -/
def regsUpTo (s : State) (x : Reg) : List Byte :=
  (List.range (x.toNat + 1)).map fun k => reg s (BitVec.ofNat 4 k)

/-- Write bytes into the registers from `V[k]` upward (spec/43_index_memory.md R145). -/
def setRegsFrom (k : Nat) (bs : List Byte) (s : State) : State :=
  match bs with
  | [] => s
  | b :: rest => setRegsFrom (k + 1) rest (setReg (BitVec.ofNat 4 k) b s)

/-! ### Display (R30) -/

/-- `Pixel(px, py)`. -/
def pixel (s : State) (px : Col) (py : Row) : Bool := (s.display[px])[py]

/-- `FlipPixel(px, py)`: toggle the cell and set `dirty`. -/
def flipPixel (px : Col) (py : Row) (s : State) : State :=
  { s with
    display := s.display.set px ((s.display[px]).set py (!pixel s px py))
    dirty := true }

/-- The blank grid. -/
def blankDisplay : Display := Vector.replicate 64 (Vector.replicate 32 false)

/-- `ClearDisplay()`: every cell 0 and `dirty` set. -/
def clearDisplay (s : State) : State := { s with display := blankDisplay, dirty := true }

/-- Flip a list of cells in order; also whether any of them was lit just before its flip. -/
def flipCells (cells : List (Col × Row)) (hit : Bool) (s : State) : State × Bool :=
  match cells with
  | [] => (s, hit)
  | (px, py) :: rest => flipCells rest (hit || pixel s px py) (flipPixel px py s)

/-! ### Keyboard (R32) -/

/-- `KeyPressed(b)`: the whole byte is the code, so a code above 15 is never pressed. -/
def keyPressed (s : State) (b : Byte) : Bool := s.keys.any fun k => k.setWidth 8 == b

/-- `LastKey()` under a tie-break rule: the most recently inserted pressed key. -/
def lastKey (t : KeyTiebreak) (s : State) : Option Key :=
  match t with
  | .lastInserted => s.keys.getLast?

/-- `press(k)` on the list of pressed keys: appended if absent, else its position is kept. -/
def insertKey (k : Key) (ks : List Key) : List Key := if k ∈ ks then ks else ks ++ [k]

/-- `release(k)` on the list of pressed keys: removed if present, the order of the rest is kept. -/
def removeKey (k : Key) (ks : List Key) : List Key := ks.filter fun j => j != k

/-! ### Random input (R132) -/

/-- `draw8()`: the free byte of this draw. The spec makes the byte an input of each `step`, under no law, and has no two runs agree
(spec/10_state.md R34, D24, N8). That `draw8` is one fixed function of the counter `draws`, so that two runs, or two states, with equal
counters get the same byte, is the model's DESIGN CHOICE (log 17): unsafe for a claim that compares two runs, which speaks of runs
given the same bytes. -/
def draw8 (s : State) : Byte := Config.freeByte s.draws

/-- The state after a draw: the next draw is another free byte. -/
def countDraw (s : State) : State := { s with draws := s.draws + 1 }

end Sys2Proof.Machine
end

