-- ==== Sys2Proof/Machine/Operands.lean ====
section
/-! DEFINITION. Every operand form (spec/30_encoding.md R73, spec/43_index_memory.md R146): immediates, addresses, the glyph
address, decimal digits, sprite cells. -/

namespace Sys2Proof.Machine

/-- An address field as a 16-bit value: zero-extended (spec/30_encoding.md R73). -/
def zextAddr (nnn : BitVec 12) : Addr := nnn.setWidth 16

/-- A register's byte as a 16-bit value: zero-extended. -/
def zextByte (b : Byte) : Addr := b.setWidth 16

/-- A key code as a register byte (spec/45_keyboard_timers.md R163: 0 to 15). -/
def keyByte (k : Key) : Byte := k.setWidth 8

/-- The target of `JP V0, addr`: no mask to 12 bits (spec/40_control_transfer.md R103). -/
def offsetTarget (nnn : BitVec 12) (s : State) : Addr := zextAddr nnn + zextByte (reg s 0#4)

/-- The base address of the memory instructions, `I` as an unbounded number (spec/43_index_memory.md R146). -/
def indexBase (s : State) : Nat := s.i.toNat

/-- The glyph address of a digit: the whole byte times 5 (spec/43_index_memory.md R142). -/
def glyphAddress (b : Byte) : Addr := zextByte b * 5

/-- The hundreds digit (spec/43_index_memory.md R143). -/
def hundreds (b : Byte) : Byte := BitVec.ofNat 8 (b.toNat / 100)

/-- The tens digit. -/
def tens (b : Byte) : Byte := BitVec.ofNat 8 (b.toNat / 10 % 10)

/-- The units digit. -/
def units (b : Byte) : Byte := BitVec.ofNat 8 (b.toNat % 10)

/-- The display column of a horizontal coordinate under an edge policy (spec/44_display.md R151, log 10). -/
def edgeCol (e : DrawEdge) (x : Nat) : Col :=
  match e with
  | .wrap => ⟨x % 64, Nat.mod_lt x (by decide)⟩

/-- The display row of a vertical coordinate under an edge policy (spec/44_display.md R151, log 10). -/
def edgeRow (e : DrawEdge) (y : Nat) : Row :=
  match e with
  | .wrap => ⟨y % 32, Nat.mod_lt y (by decide)⟩

/-- Column `col` of a sprite byte is bit `7 - col` (spec/44_display.md R152, log 11). -/
def spriteBit (b : Byte) (col : Nat) : Bool := b.getLsbD (7 - col)

/-- The cells that one sprite row toggles, columns in ascending order. -/
def rowCells (e : DrawEdge) (vx vy : Nat) (row : Nat) (b : Byte) : List (Col × Row) :=
  ((List.range 8).filter (spriteBit b)).map fun col => (edgeCol e (vx + col), edgeRow e (vy + row))

/-- The cells that a sprite toggles, in the order of the loops of spec/44_display.md R151, its rows numbered from `row`. -/
def spriteCells (e : DrawEdge) (vx vy : Nat) (row : Nat) (bytes : List Byte) : List (Col × Row) :=
  match bytes with
  | [] => []
  | b :: rest => rowCells e vx vy row b ++ spriteCells e vx vy (row + 1) rest

end Sys2Proof.Machine
end

