-- ==== Sys2Proof/Machine/Alu.lean ====
section
/-! DEFINITION. Register load and ALU (spec/42_load_alu.md). Every instruction of this family ends with `pc + 2` and raises
nothing (R130). -/

namespace Sys2Proof.Machine

/-- Write `V[x]` and go on: the shape of the loads and of the operations without a flag. -/
def writeReg (x : Reg) (b : Byte) (s : State) : Result := .next (advance (setReg x b s))

/-- Write `V[x]` first and the flag `V[0xF]` second, both computed before any write: the order of `ADD`, `SUB`, `SUBN`
(R134, the spec's decision D25, log 18). -/
def writeRegThenFlag (x : Reg) (b flag : Byte) (s : State) : Result :=
  .next (advance (setReg flagReg flag (setReg x b s)))

/-- Write the flag `V[0xF]` first and then shift `V[x]`, which is read again: the order of `SHR` and `SHL` (R134, the spec's
decision D25, log 18). -/
def writeFlagThenShift (x : Reg) (flag : Byte) (shift : Byte → Byte) (s : State) : Result :=
  .next (advance (setReg x (shift (reg (setReg flagReg flag s) x)) (setReg flagReg flag s)))

/-- `LD Vx, nn` (R120). -/
def execLdImm (x : Reg) (nn : Byte) (s : State) : Result := writeReg x nn s

/-- `ADD Vx, nn` (R121): modulo 256, no flag. -/
def execAddImm (x : Reg) (nn : Byte) (s : State) : Result := writeReg x (reg s x + nn) s

/-- `LD Vx, Vy` (R122). -/
def execLdReg (x y : Reg) (s : State) : Result := writeReg x (reg s y) s

/-- `OR Vx, Vy` (R123): no flag. -/
def execOrReg (x y : Reg) (s : State) : Result := writeReg x (reg s x ||| reg s y) s

/-- `AND Vx, Vy` (R124): no flag. -/
def execAndReg (x y : Reg) (s : State) : Result := writeReg x (reg s x &&& reg s y) s

/-- `XOR Vx, Vy` (R125): no flag. -/
def execXorReg (x y : Reg) (s : State) : Result := writeReg x (reg s x ^^^ reg s y) s

/-- `ADD Vx, Vy` (R126): the sum modulo 256, then the carry. -/
def execAddReg (x y : Reg) (s : State) : Result :=
  writeRegThenFlag x (reg s x + reg s y) (carryFlag (reg s x) (reg s y)) s

/-- `SUB Vx, Vy` (R127): `V[x] - V[y]` modulo 256, then no borrow. -/
def execSubReg (x y : Reg) (s : State) : Result :=
  writeRegThenFlag x (reg s x - reg s y) (noBorrowFlag (reg s x) (reg s y)) s

/-- `SHR Vx` (R128): the bit shifted out, then a logical shift right by one. -/
def execShr (x : Reg) (s : State) : Result :=
  writeFlagThenShift x (shrFlag (reg s x)) (fun b => b >>> 1) s

/-- `SUBN Vx, Vy` (R129): `V[y] - V[x]` modulo 256, then no borrow. -/
def execSubnReg (x y : Reg) (s : State) : Result :=
  writeRegThenFlag x (reg s y - reg s x) (noBorrowFlag (reg s y) (reg s x)) s

/-- The left shift under a value of `QUIRK_SHL_FLAG` (R131). -/
def shlWith (q : ShlFlag) (x : Reg) (s : State) : Result :=
  writeFlagThenShift x (shlFlagByte q (reg s x)) (fun b => b <<< 1) s

/-- `SHL Vx` (R131), at this hardware's `QUIRK_SHL_FLAG`. -/
def execShl (x : Reg) (s : State) : Result := shlWith params.shlFlag x s

/-- `RND Vx, nn` (R132): a free byte under the mask `nn` (log 17). -/
def execRnd (x : Reg) (nn : Byte) (s : State) : Result := writeReg x (draw8 s &&& nn) (countDraw s)

end Sys2Proof.Machine
end

