-- ==== Sys2Proof/Machine/Control.lean ====
section
/-! DEFINITION. Control transfer (spec/40_control_transfer.md): `RET`, `JP addr`, `CALL addr`, `JP V0, addr`. Targets are not
checked; a bad one faults at the next fetch (R105). -/

namespace Sys2Proof.Machine

/-- `RET` (R100): the stack holds the address of the `CALL`, so 2 is added; StackUnderflow on an empty stack (R172). -/
def execRet (s : State) : Result :=
  match pop s with
  | .error f => raise f
  | .ok (a, t) => .next (jumpTo (a + 2) t)

/-- `JP addr` (R101). -/
def execJp (nnn : BitVec 12) (s : State) : Result := .next (jumpTo (zextAddr nnn) s)

/-- A call on a stack of the given depth (R102): the address of the `CALL` itself is pushed. -/
def callAtDepth (depth : Option Nat) (nnn : BitVec 12) (s : State) : Result :=
  match push depth s.pc s with
  | .error f => raise f
  | .ok t => .next (jumpTo (zextAddr nnn) t)

/-- `CALL addr` (R102), at this hardware's `STACK_DEPTH`. -/
def execCall (nnn : BitVec 12) (s : State) : Result := callAtDepth params.stackDepth nnn s

/-- `JP V0, addr` (R103). -/
def execJpV0 (nnn : BitVec 12) (s : State) : Result := .next (jumpTo (offsetTarget nnn s) s)

end Sys2Proof.Machine
end

