-- ==== Sys2Proof/Machine/Display.lean ====
section
/-! DEFINITION. Display instructions (spec/44_display.md): `CLS` and `DRW Vx, Vy, n`. -/

namespace Sys2Proof.Machine

/-- `CLS` (R150): the display's clearing operation, `dirty` set even when it was blank (log 19). -/
def execCls (s : State) : Result := .next (advance (clearDisplay s))

/-- Draw the sprite bytes at `(vx, vy)`, then write the erasure flag, then go on (R151). -/
def drawSprite (e : DrawEdge) (vx vy : Byte) (bytes : List Byte) (s : State) : Result :=
  let drawn := flipCells (spriteCells e vx.toNat vy.toNat 0 bytes) false s
  .next (advance (setReg flagReg (flagByte drawn.2) drawn.1))

/-- `DRW Vx, Vy, n` under an edge policy (R151): `V[x]`, `V[y]`, `I` and the sprite are read before any write (log 10). -/
def drawAtIndex (e : DrawEdge) (x y : Reg) (n : BitVec 4) (s : State) : Result :=
  match memRead s (indexBase s) n.toNat with
  | .error f => raise f
  | .ok bytes => drawSprite e (reg s x) (reg s y) bytes s

/-- `DRW Vx, Vy, n` (R151), at this hardware's `DRAW_EDGE`. -/
def execDrw (x y : Reg) (n : BitVec 4) (s : State) : Result := drawAtIndex params.drawEdge x y n s

end Sys2Proof.Machine
end

