-- ==== Sys2Proof/Machine/IndexMemory.lean ====
section
/-! DEFINITION. Address register and memory (spec/43_index_memory.md). `I` is not modified by the memory instructions (R146),
and an access above 4095 raises AddressOutOfRange before the first write (R54, R176). -/

namespace Sys2Proof.Machine

/-- `LD I, addr` (R140). -/
def execLdI (nnn : BitVec 12) (s : State) : Result := .next (advance (setIndex (zextAddr nnn) s))

/-- `ADD I, Vx` (R141): modulo 65536, no mask, no flag. -/
def execAddI (x : Reg) (s : State) : Result := .next (advance (setIndex (s.i + zextByte (reg s x)) s))

/-- `LD F, Vx` (R142): the whole byte times 5. -/
def execLdF (x : Reg) (s : State) : Result := .next (advance (setIndex (glyphAddress (reg s x)) s))

/-- Store bytes from `I` upward and go on: the shape of the stores. -/
def storeAtIndex (bs : List Byte) (s : State) : Result :=
  match memWrite (indexBase s) bs s with
  | .error f => raise f
  | .ok t => .next (advance t)

/-- The three digits one after the other at the one address `I` (R143, `same_address`; R66). -/
def storeDigitsAtOne (b : Byte) (s : State) : Result :=
  match memWrite (indexBase s) [hundreds b] s with
  | .error f => raise f
  | .ok t =>
    match memWrite (indexBase s) [tens b] t with
    | .error f => raise f
    | .ok u => storeAtIndex [units b] u

/-- The decimal digits of a byte under a value of `QUIRK_BCD` (R143). -/
def storeDigits (q : BcdMode) (b : Byte) (s : State) : Result :=
  match q with
  | .sameAddress => storeDigitsAtOne b s
  | .threeAddress => storeAtIndex [hundreds b, tens b, units b] s

/-- `LD B, Vx` (R143), at this hardware's `QUIRK_BCD`. -/
def execLdB (x : Reg) (s : State) : Result := storeDigits params.bcd (reg s x) s

/-- `LD [I], Vx` (R144): `V[0]` to `V[x]`, lowest register at the lowest address. -/
def execStoreRegs (x : Reg) (s : State) : Result := storeAtIndex (regsUpTo s x) s

/-- `LD Vx, [I]` (R145): into `V[0]` to `V[x]`. -/
def execLoadRegs (x : Reg) (s : State) : Result :=
  match memRead s (indexBase s) (x.toNat + 1) with
  | .error f => raise f
  | .ok bs => .next (advance (setRegsFrom 0 bs s))

end Sys2Proof.Machine
end

