-- ==== Sys2Proof/Machine/KeyTimers.lean ====
section
/-! DEFINITION. Keyboard and timer instructions (spec/45_keyboard_timers.md). None writes the flag, memory, `I`, the stack or
the display, none can raise, and none changes the keyboard (R166). -/

namespace Sys2Proof.Machine

/-- `SKP Vx` (R160): the whole byte is the key code. -/
def execSkp (x : Reg) (s : State) : Result := .next (skipIf (keyPressed s (reg s x)) s)

/-- `SKNP Vx` (R161). -/
def execSknp (x : Reg) (s : State) : Result := .next (skipIf (!keyPressed s (reg s x)) s)

/-- `LD Vx, DT` (R162). -/
def execLdVxDt (x : Reg) (s : State) : Result := .next (advance (setReg x s.dt s))

/-- `LD Vx, K` under a tie-break rule (R163): the last pressed key, or no change at all while none is pressed. -/
def waitForKey (t : KeyTiebreak) (x : Reg) (s : State) : Result :=
  match lastKey t s with
  | some k => .next (advance (setReg x (keyByte k) s))
  | none => .next s

/-- `LD Vx, K` (R163), at this hardware's `KEY_TIEBREAK`. -/
def execLdVxK (x : Reg) (s : State) : Result := waitForKey params.keyTiebreak x s

/-- `LD DT, Vx` (R164). -/
def execLdDt (x : Reg) (s : State) : Result := .next (advance (setDelay (reg s x) s))

/-- `LD ST, Vx` (R165): `sounding` is not touched (log 20). -/
def execLdSt (x : Reg) (s : State) : Result := .next (advance (setSpeaker (reg s x) s))

end Sys2Proof.Machine
end

