-- ==== Sys2Proof/Machine/Skips.lean ====
section
/-! DEFINITION. Conditional skips on registers (spec/41_skips.md): `SE` and `SNE`, with an immediate and with a register. The
skipped word is not fetched (R114). -/

namespace Sys2Proof.Machine

/-- `SE Vx, nn` (R110). -/
def execSeImm (x : Reg) (nn : Byte) (s : State) : Result := .next (skipIf (reg s x == nn) s)

/-- `SNE Vx, nn` (R111). -/
def execSneImm (x : Reg) (nn : Byte) (s : State) : Result := .next (skipIf (reg s x != nn) s)

/-- `SE Vx, Vy` (R112). -/
def execSeReg (x y : Reg) (s : State) : Result := .next (skipIf (reg s x == reg s y) s)

/-- `SNE Vx, Vy` (R113). -/
def execSneReg (x y : Reg) (s : State) : Result := .next (skipIf (reg s x != reg s y) s)

end Sys2Proof.Machine
end

