-- ==== Sys2Proof/Machine/Step.lean ====
section
/-! DEFINITION. The `step` command (spec/30_encoding.md R79): fetch, decode, execute, in that order; fetch and decode change no
state, and the first raise ends the step (spec/60_exceptions.md R175). -/

namespace Sys2Proof.Machine

/-- One `step`. Its draw byte, by R34 an input of the transition, is `draw8` of the state: DESIGN CHOICE, log 17. -/
def step (s : State) : Host.Outcome State Fault Refusal :=
  match fetch s with
  | .error f => raise f
  | .ok w =>
    match decodeWord w with
    | none => raise (.invalidOpcode w)
    | some i => exec i s

/-- The state with the instruction whose bits are `w` stored where `step` fetches next. It stands for `loadProgram`, by which a
program comes into the machine; where the fetch cannot take place (`pc` above 4094) the pc goes to `LOAD_OFFSET`. Log 22. -/
def State.withFetchWord (s : State) (nbits w : Nat) : State :=
  if s.pc.toNat ≤ 4094 then writeBytes s.pc.toNat (tableBytes nbits w) s
  else writeBytes params.loadOffset.toNat (tableBytes nbits w) (jumpTo params.loadOffset s)

end Sys2Proof.Machine
end

