-- ==== Sys2Proof/Machine/Observe.lean ====
section
/-! DEFINITION. The observation surface (spec/10_state.md R42, spec/60_exceptions.md R189): what the outside may read. Reading
changes nothing. -/

namespace Sys2Proof.Machine

/-- The outputs of the core: the pixel grid, the dirty flag, the sounding flag, the register file; nothing else (R42). -/
structure Observation where
  display : Display
  dirty : Bool
  sounding : Bool
  v : Vector Byte 16
  deriving DecidableEq, Repr

/-- What the outside reads from a state. -/
def observe (s : State) : Observation where
  display := s.display
  dirty := s.dirty
  sounding := s.sounding
  v := s.v

end Sys2Proof.Machine
end

