-- ==== Sys2Proof/WellFormed.lean ====
section
/-! DEFINITION. What the spec asks of data that types alone do not fix: the parameters and the program image.

An `Instr` has no check of its own: the spec makes every value of every field legal (spec/30_encoding.md R73, "all 16 values
are legal in every register field"), and the field widths are the types, so an ill-formed instruction cannot be written. -/

namespace Sys2Proof

/-- `LOAD_OFFSET` lies above the glyph region (spec/20_memory.md R55: "so `LOAD_OFFSET >= 80`"). -/
def Config.offsetAboveGlyphs (c : Config) : Bool := 80 ≤ c.loadOffset.toNat

/-- `LOAD_OFFSET` is even (spec/20_memory.md R55: "it is even"). -/
def Config.offsetEven (c : Config) : Bool := c.loadOffset.toNat % 2 = 0

/-- `LOAD_OFFSET` lies inside the memory, with room for one instruction (spec/20_memory.md R50, R55). -/
def Config.offsetInMemory (c : Config) : Bool := c.loadOffset.toNat ≤ 4094

/-- `GLYPH_TABLE` is 16 glyphs of 5 bytes (spec/20_memory.md R56). -/
def Config.glyphsComplete (c : Config) : Bool := c.glyphTable.length = 80

/-- The parameters meet what the source fixes about them. -/
def Config.wf (c : Config) : Bool :=
  c.offsetAboveGlyphs && c.offsetEven && c.offsetInMemory && c.glyphsComplete

/-- A program image fits above the load offset (spec/70_reset_and_hazards.md R202, R203). -/
def imageFits (c : Config) (image : List Byte) : Bool :=
  c.loadOffset.toNat + image.length ≤ 4096

end Sys2Proof
end

