-- ==== Sys2Proof/Machine/Commands.lean ====
section
/-! DEFINITION. The commands by which the outside drives the core (spec/10_state.md R40). Every transition of the state is one
of them; they are atomic and totally ordered, and every order is allowed (R41), so a schedule is any list of commands.
`step` is the command behind `Sys2Proof.core`; the others never happen inside it. Log 21. -/

namespace Sys2Proof.Machine

/-- The commands of R40 with their arguments. -/
inductive Command where
  | step
  | tick
  | reset
  | loadProgram (image : List Byte)
  | press (k : Key)
  | release (k : Key)
  | ackDisplay
  deriving DecidableEq, Repr

/-- One tick of a counter: down by 1 while above 0, and it stays at 0 (spec/60_exceptions.md R185). -/
def tickDown (b : Byte) : Byte := if b = 0 then 0 else b - 1

/-- `tick` (spec/60_exceptions.md R185): both counters, and `sounding` says whether `ST` was above 0 before. It never fails. -/
def tickTimers (s : State) : State :=
  { s with dt := tickDown s.dt, st := tickDown s.st, sounding := decide (s.st ≠ 0) }

/-- `reset` to a state at construction (spec/70_reset_and_hazards.md R200): everything at its reset value but the keyboard, which is
kept; the free bytes go on from where they were (log 17). -/
def resetTo (r s : State) : State := { r with keys := s.keys, draws := s.draws }

/-- `reset` at this hardware's parameters. -/
def resetAll (s : State) : State := resetTo State.reset s

/-- `loadProgram(image)` under any values of the parameters (R202, R203): copied to `LOAD_OFFSET` upward; refused whole when it does
not fit (log 23, which also names the length in the refusal as the model's own). -/
def loadImageAt (c : Config) (image : List Byte) (s : State) : Result :=
  if imageFits c image then .next (writeBytes c.loadOffset.toNat image s)
  else .refused (.outOfBounds image.length)

/-- `loadProgram(image)` at this hardware's parameters. -/
def loadImage (image : List Byte) (s : State) : Result := loadImageAt params image s

/-- `press(k)` (spec/10_state.md R32). -/
def pressKey (k : Key) (s : State) : State := { s with keys := insertKey k s.keys }

/-- `release(k)` (spec/10_state.md R32). -/
def releaseKey (k : Key) (s : State) : State := { s with keys := removeKey k s.keys }

/-- `ackDisplay` (spec/10_state.md R43; log 19). -/
def ackDisplay (s : State) : State := { s with dirty := false }

/-- What a command answers. -/
def command (c : Command) (s : State) : Result :=
  match c with
  | .step => step s
  | .tick => .next (tickTimers s)
  | .reset => .next (resetAll s)
  | .loadProgram image => loadImage image s
  | .press k => .next (pressKey k s)
  | .release k => .next (releaseKey k s)
  | .ackDisplay => .next (ackDisplay s)

/-- The state after a command: a command that raises or is refused leaves it exactly as it was (spec/60_exceptions.md R176,
spec/70_reset_and_hazards.md R203), and the outside may go on issuing commands (R178; log 16). -/
def afterCommand (c : Command) (s : State) : State :=
  match command c s with
  | .next t => t
  | .fault _ => s
  | .refused _ => s

/-- The state after a schedule of commands. -/
def runCommands (cs : List Command) (s : State) : State :=
  match cs with
  | [] => s
  | c :: rest => runCommands rest (afterCommand c s)

end Sys2Proof.Machine
end

