-- ==== Sys2Proof/Machine/Variants.lean ====
section
/-! DEFINITION. The machine at any values of the parameters of spec/00_scope.md R6. At the spec's defaults (`params`) it is the
machine of Step.lean and Commands.lean: an obligation says so. Log 26. -/

namespace Sys2Proof.Machine

/-- The execute phase: the five instructions whose meaning has a parameter take it from the configuration. -/
def execAt (c : Config) (i : Instr) (s : State) : Result :=
  match i with
  | .call nnn => callAtDepth c.stackDepth nnn s
  | .shl x _ => shlWith c.shlFlag x s
  | .drw x y n => drawAtIndex c.drawEdge x y n s
  | .ldVxK x => waitForKey c.keyTiebreak x s
  | .ldB x => storeDigits c.bcd (reg s x) s
  | .cls | .ret | .jp _ | .seImm _ _ | .sneImm _ _ | .seReg _ _ | .ldImm _ _ | .addImm _ _ | .ldReg _ _ => exec i s
  | .orReg _ _ | .andReg _ _ | .xorReg _ _ | .addReg _ _ | .subReg _ _ | .shr _ _ | .subnReg _ _ | .sneReg _ _ => exec i s
  | .ldI _ | .jpV0 _ | .rnd _ _ | .skp _ | .sknp _ | .ldVxDt _ | .ldDt _ | .ldSt _ | .addI _ | .ldF _ => exec i s
  | .storeRegs _ | .loadRegs _ => exec i s

/-- One `step`: the decoder reads the configuration's opcode map. -/
def stepAt (c : Config) (s : State) : Result :=
  match fetch s with
  | .error f => raise f
  | .ok w =>
    match decodeBy c.opcodeMap w with
    | none => raise (.invalidOpcode w)
    | some i => execAt c i s

/-- What a command answers. -/
def commandAt (c : Config) (d : Command) (s : State) : Result :=
  match d with
  | .step => stepAt c s
  | .tick => .next (tickTimers s)
  | .reset => .next (resetTo (State.resetAt c) s)
  | .loadProgram image => loadImageAt c image s
  | .press k => .next (pressKey k s)
  | .release k => .next (releaseKey k s)
  | .ackDisplay => .next (ackDisplay s)

end Sys2Proof.Machine
end

