-- ==== Sys2Proof/Safety.lean ====
section
/-! DEFINITION. The terms in which claims speak: the places of the state, what an instruction may write, the invariant of the
machine, when an instruction raises, and the usual end of a program. -/

namespace Sys2Proof.Machine

/-- A place of the state (spec/10_state.md R35), down to a single register, byte or display cell. -/
inductive Place where
  | reg (r : Reg)
  | index
  | pc
  | stack
  | delay
  | speaker
  | sounding
  | byte (a : Nat)
  | cell (px : Col) (py : Row)
  | dirty
  | keys
  /-- the model's own counter of draws (log 17) -/
  | draws
  deriving DecidableEq, Repr

/-- Two states agree at a place. -/
def sameAt (p : Place) (s t : State) : Prop :=
  match p with
  | .reg r => reg t r = reg s r
  | .index => t.i = s.i
  | .pc => t.pc = s.pc
  | .stack => t.stack = s.stack
  | .delay => t.dt = s.dt
  | .speaker => t.st = s.st
  | .sounding => t.sounding = s.sounding
  | .byte a => readByte t a = readByte s a
  | .cell px py => pixel t px py = pixel s px py
  | .dirty => t.dirty = s.dirty
  | .keys => t.keys = s.keys
  | .draws => t.draws = s.draws

/-- Every place but the listed ones is unchanged. -/
def unchangedBut (written : List Place) (s t : State) : Prop :=
  ∀ p, p ∉ written → sameAt p s t

/-- How many bytes `LD B, Vx` stores to under a value of `QUIRK_BCD` (spec/43_index_memory.md R143). -/
def digitSpan (q : BcdMode) : Nat :=
  match q with
  | .sameAddress => 1
  | .threeAddress => 3

/-- What an instruction may write, read off the tables of spec/10_state.md R22 and R35. Every one may write `pc`. -/
def mayWrite (i : Instr) (s : State) (p : Place) : Prop :=
  p = .pc ∨
  match i with
  | .cls => p = .dirty ∨ ∃ px py, p = .cell px py
  | .ret => p = .stack
  | .jp _ => False
  | .call _ => p = .stack
  | .seImm _ _ => False
  | .sneImm _ _ => False
  | .seReg _ _ => False
  | .ldImm x _ => p = .reg x
  | .addImm x _ => p = .reg x
  | .ldReg x _ => p = .reg x
  | .orReg x _ => p = .reg x
  | .andReg x _ => p = .reg x
  | .xorReg x _ => p = .reg x
  | .addReg x _ => p = .reg x ∨ p = .reg flagReg
  | .subReg x _ => p = .reg x ∨ p = .reg flagReg
  | .shr x _ => p = .reg x ∨ p = .reg flagReg
  | .subnReg x _ => p = .reg x ∨ p = .reg flagReg
  | .shl x _ => p = .reg x ∨ p = .reg flagReg
  | .sneReg _ _ => False
  | .ldI _ => p = .index
  | .jpV0 _ => False
  | .rnd x _ => p = .reg x ∨ p = .draws
  | .drw _ _ _ => p = .reg flagReg ∨ p = .dirty ∨ ∃ px py, p = .cell px py
  | .skp _ => False
  | .sknp _ => False
  | .ldVxDt x => p = .reg x
  | .ldVxK x => p = .reg x
  | .ldDt _ => p = .delay
  | .ldSt _ => p = .speaker
  | .addI _ => p = .index
  | .ldF _ => p = .index
  | .ldB _ => ∃ k, k < digitSpan params.bcd ∧ p = .byte (indexBase s + k)
  | .storeRegs x => ∃ k, k ≤ x.toNat ∧ p = .byte (indexBase s + k)
  | .loadRegs x => ∃ r : Reg, r ≤ x ∧ p = .reg r

/-- AddressOutOfRange for `len` data bytes from `I`: the first address above 4095, if there is one (spec/20_memory.md R54). -/
def dataFault (s : State) (len : Nat) : Option Fault :=
  if 0 < len ∧ 4095 < indexBase s + len - 1 then some (.addressOutOfRange (max (indexBase s) 4096)) else none

/-- When the execute phase raises, and what (spec/60_exceptions.md R174, R175): each instruction has at most one such fault,
StackUnderflow for `RET`, StackOverflow for `CALL`, AddressOutOfRange for the four that access data bytes. -/
def raises (i : Instr) (s : State) : Option Fault :=
  match i with
  | .ret => if s.stack = [] then some .stackUnderflow else none
  | .call _ =>
    match params.stackDepth with
    | none => none
    | some n => if n ≤ s.stack.length then some .stackOverflow else none
  | .drw _ _ n => dataFault s n.toNat
  | .ldB _ => dataFault s (digitSpan params.bcd)
  | .storeRegs x => dataFault s (x.toNat + 1)
  | .loadRegs x => dataFault s (x.toNat + 1)
  | .cls | .jp _ | .seImm _ _ | .sneImm _ _ | .seReg _ _ | .ldImm _ _ | .addImm _ _ => none
  | .ldReg _ _ | .orReg _ _ | .andReg _ _ | .xorReg _ _ | .addReg _ _ | .subReg _ _ => none
  | .shr _ _ | .subnReg _ _ | .shl _ _ | .sneReg _ _ | .ldI _ | .jpV0 _ | .rnd _ _ => none
  | .skp _ | .sknp _ | .ldVxDt _ | .ldVxK _ | .ldDt _ | .ldSt _ | .addI _ | .ldF _ => none

/-- The invariant of the machine: memory in canonical form, keys without repeats (spec/10_state.md R32), saved program
counters that a fetch has used (spec/40_control_transfer.md R100: at most 4094), and `pc` within the largest value any
instruction computes (spec/10_state.md R24: 0x10FE). -/
abbrev GoodState (s : State) : Prop :=
  Memory.wf s.mem ∧ s.keys.Nodup ∧ (∀ a ∈ s.stack, a.toNat ≤ 4094) ∧ s.pc.toNat ≤ 0x10FE

/-- Whether `DRW Vx, Vy, n` toggles a cell, said from the cell: its column and row counted from the position `(V[x], V[y])`
around the edges of the display, and the bit there of the sprite at `I` (spec/44_display.md R151, R152). -/
def spriteToggles (x y : Reg) (n : BitVec 4) (s : State) (px : Col) (py : Row) : Bool :=
  let col := (px.val + 64 - (reg s x).toNat % 64) % 64
  let row := (py.val + 32 - (reg s y).toNat % 32) % 32
  decide (col < 8) && decide (row < n.toNat) && (readByte s (indexBase s + row)).getLsbD (7 - col)

/-- Two states that agree in everything but what no instruction reads: `ST`, `sounding` and `dirty` (spec/10_state.md R33,
R35). -/
def sameButOutputs (s t : State) : Prop :=
  t = { s with st := t.st, sounding := t.sounding, dirty := t.dirty }

/-- The usual end of a program: the instruction at `pc` is a `JP` to itself (spec/70_reset_and_hazards.md R214; log 28). -/
def selfLoop (s : State) : Prop := ∃ nnn : BitVec 12, fetch s = .ok (encode (.jp nnn)) ∧ zextAddr nnn = s.pc

end Sys2Proof.Machine
end

