-- ==== Sys2Proof/Certificates/Slice0/Obligations.lean ====
section
/-! DEFINITION. The statements about the machine that the provers are asked to prove. Numbers are written with `toNat`, so that
a statement speaks of the spec's unbounded integers and its explicit `mod`. -/

open Sys2Proof Sys2Proof.Machine

/-! ### Reset, step, decode -/

/-- The state at construction. The zeros of `V`, `I`, `DT` and the empty stack are the spec's decision D4, the zero memory D5,
the glyph bytes D3, the number 0x200 D2, the empty keyboard D6 (logs 2 to 6); `pc`, `ST`, `sounding`, display and `dirty` are
given by the source (spec/10_state.md R45, R46). -/
def Obligations.ResetStateFields : Prop :=
  (∀ r, reg State.reset r = 0) ∧ State.reset.i = 0 ∧ State.reset.pc.toNat = 0x200 ∧ State.reset.stack = [] ∧
  State.reset.dt = 0 ∧ State.reset.st = 0 ∧ State.reset.sounding = false ∧
  (∀ a, a < 80 → readByte State.reset a = glyphTable.getD a 0) ∧
  (∀ a, 80 ≤ a → readByte State.reset a = 0) ∧
  (∀ px py, pixel State.reset px py = false) ∧ State.reset.dirty = true ∧ State.reset.keys = []

/-- The `reset` command (spec/70_reset_and_hazards.md R200), from every state: everything at its reset value, the keyboard
kept. The zeros are the spec's decision D4, the zero memory D5, the kept keyboard D6 (logs 4, 5, 6). -/
def Obligations.ResetCommandKeepsKeyboard : Prop :=
  ∀ s, ∃ t, command .reset s = .next t ∧
    (∀ r, reg t r = 0) ∧ t.i = 0 ∧ t.pc = params.loadOffset ∧ t.stack = [] ∧ t.dt = 0 ∧ t.st = 0 ∧ t.sounding = false ∧
    (∀ a, a < 80 → readByte t a = glyphTable.getD a 0) ∧ (∀ a, 80 ≤ a → readByte t a = 0) ∧
    (∀ px py, pixel t px py = false) ∧ t.dirty = true ∧ t.keys = s.keys

/-- The invariant holds at construction. Its clause on memory is the canonical form of the list of cells, the model's own DESIGN
CHOICE (log 24); distinct keys rest on the spec's decision D14 (log 12). -/
def Obligations.InvariantAtReset : Prop := GoodState State.reset

/-- A step runs the decoded instruction (spec/30_encoding.md R79): when the two bytes at `pc` decode to an instruction, the step
is the execution of it and adds nothing around it. -/
def Obligations.StepRunsDecodedInstruction : Prop :=
  ∀ s i, s.pc.toNat ≤ 4094 →
    decodeWord (joinBytes (readByte s s.pc.toNat) (readByte s (s.pc.toNat + 1))) = some i →
    step s = exec i s

/-- A word that selects no row of the opcode table raises InvalidOpcode with that word, and `pc` and everything else stay as they
were (spec/60_exceptions.md R170). The rows are the spec's decision D1, the unchanged state D23 (logs 1, 7, 16). -/
def Obligations.UndefinedOpcodeRaises : Prop :=
  ∀ s w, fetch s = .ok w → (∀ r ∈ opcodeRows, r.selects w = false) →
    command .step s = .fault (.invalidOpcode w) ∧ afterCommand .step s = s

/-- A fetch of which a byte lies above 4095 raises AddressOutOfRange with the first such address: the spec's decision D15
(log 13). -/
def Obligations.FetchAboveMemoryRaises : Prop :=
  ∀ s, 4094 < s.pc.toNat → step s = .fault (.addressOutOfRange (max s.pc.toNat 4096))

/-- The fetch is big-endian, and after `loadProgram` a fetch at the load offset gives the first two loaded bytes
(spec/20_memory.md R52). -/
def Obligations.FetchIsBigEndian : Prop :=
  (∀ s, s.pc.toNat ≤ 4094 → ∃ w, fetch s = .ok w ∧
    w.toNat = (readByte s s.pc.toNat).toNat * 256 + (readByte s (s.pc.toNat + 1)).toNat) ∧
  ∀ s b0 b1 rest, imageFits params (b0 :: b1 :: rest) = true → ∃ t w, command (.loadProgram (b0 :: b1 :: rest)) s = .next t ∧
    fetch { t with pc := params.loadOffset } = .ok w ∧ w.toNat = b0.toNat * 256 + b1.toNat

/-- Decoding an encoded instruction gives it back, with every operand at every value; bytes after it are left over. -/
def Obligations.DecodeOfEncode : Prop :=
  ∀ i rest, decode (encodeBytes i ++ rest) = .ok (i, rest)

/-- Encoding a decoded word gives it back: no bit of a valid opcode is dropped. -/
def Obligations.EncodeOfDecode : Prop :=
  ∀ w i, decodeWord w = some i → encode i = w

/-- Decoding agrees with the match and mask of the opcode table: the instruction is of the row the word selects, a word that
selects a row has an instruction, and no word selects two rows. -/
def Obligations.DecodeFollowsOpcodeTable : Prop :=
  (∀ w i, decodeWord w = some i → rowOf i ∈ opcodeRows ∧ (rowOf i).selects w = true) ∧
  (∀ w r, r ∈ opcodeRows → r.selects w = true → ∃ i, decodeWord w = some i ∧ rowOf i = r) ∧
  ∀ w, ∀ r ∈ opcodeRows, ∀ q ∈ opcodeRows, r.selects w = true → q.selects w = true → r = q

/-- The decoder by levels, the procedure of spec/30_encoding.md R74, reads from every word what the map of R75 gives. The bit
patterns of both are the spec's decision D1 (log 1). -/
def Obligations.LevelsAgreeWithMap : Prop :=
  ∀ w, decodeLevels w = decodeWord w

/-- Words of the spec's examples decode to the instructions they stand for, one per family, and an invalid one to none. -/
def Obligations.SpecWordsDecode : Prop :=
  decodeWord 0x230A = some (.call 0x30A) ∧ decodeWord 0x3A42 = some (.seImm 0xA 0x42) ∧
  decodeWord 0x8014 = some (.addReg 0 1) ∧ decodeWord 0xF033 = some (.ldB 0) ∧
  decodeWord 0xD015 = some (.drw 0 1 5) ∧ decodeWord 0xE0A1 = some (.sknp 0) ∧ decodeWord 0x0123 = none

/-! ### Control transfer -/

/-- `RET` resumes 2 after the saved address; on an empty stack it raises StackUnderflow, the spec's decision D16 (log 14). -/
def Obligations.ReturnResumesAfterCall : Prop :=
  ∀ s, (∀ a rest, s.stack = a :: rest → ∃ t, exec .ret s = .next t ∧
      t.pc.toNat = (a.toNat + 2) % 65536 ∧ t.stack = rest ∧ unchangedBut [.pc, .stack] s t) ∧
    (s.stack = [] → exec .ret s = .fault .stackUnderflow)

/-- `JP addr` sets `pc` to the address and changes nothing else; to its own address it changes nothing at all. -/
def Obligations.JumpSetsPc : Prop :=
  ∀ nnn s, ∃ t, exec (.jp nnn) s = .next t ∧ t.pc.toNat = nnn.toNat ∧ unchangedBut [.pc] s t ∧
    (s.pc.toNat = nnn.toNat → t = s)

/-- `CALL addr` pushes its own address and sets `pc`. That no depth ends it is `STACK_DEPTH` unbounded, the spec's default of the
open parameter D17 (log 14). -/
def Obligations.CallPushesOwnAddress : Prop :=
  ∀ nnn s, ∃ t, exec (.call nnn) s = .next t ∧ t.pc.toNat = nnn.toNat ∧ t.stack = s.pc :: s.stack ∧
    unchangedBut [.pc, .stack] s t

/-- This hardware's `CALL` is the call on an unbounded stack; at a finite depth a call on a full stack raises StackOverflow, and on
any other stack acts as the unbounded one: the spec's decision D17 (log 14). -/
def Obligations.CallAtFiniteDepth : Prop :=
  (∀ nnn s, exec (.call nnn) s = callAtDepth none nnn s) ∧
  ∀ n nnn s, (n ≤ s.stack.length → callAtDepth (some n) nnn s = .fault .stackOverflow) ∧
    (s.stack.length < n → callAtDepth (some n) nnn s = callAtDepth none nnn s)

/-- A call, and later a return with the stack the call left, comes back to 2 after the call with the caller's stack. -/
def Obligations.CallThenReturn : Prop :=
  ∀ nnn s t u, exec (.call nnn) s = .next t → u.stack = t.stack →
    ∃ w, exec .ret u = .next w ∧ w.pc.toNat = (s.pc.toNat + 2) % 65536 ∧ w.stack = s.stack

/-- `JP V0, addr` adds `V[0]` to the address without any wrap; a sum of 4095 or more makes the next fetch fault, the
spec's decision D15 (log 13). -/
def Obligations.JumpOffsetAddsV0 : Prop :=
  ∀ nnn s, ∃ t, exec (.jpV0 nnn) s = .next t ∧ t.pc.toNat = nnn.toNat + (reg s 0).toNat ∧ unchangedBut [.pc] s t ∧
    (4095 ≤ nnn.toNat + (reg s 0).toNat →
      step t = .fault (.addressOutOfRange (max (nnn.toNat + (reg s 0).toNat) 4096)))

/-! ### Skips -/

/-- `SE Vx, nn` and `SNE Vx, nn` add 4 or 2 to `pc` and change nothing else, x = 0xF included. -/
def Obligations.SkipOnImmediate : Prop :=
  ∀ x nn s,
    (∃ t, exec (.seImm x nn) s = .next t ∧ unchangedBut [.pc] s t ∧
      t.pc.toNat = (s.pc.toNat + if (reg s x).toNat = nn.toNat then 4 else 2) % 65536) ∧
    (∃ t, exec (.sneImm x nn) s = .next t ∧ unchangedBut [.pc] s t ∧
      t.pc.toNat = (s.pc.toNat + if (reg s x).toNat ≠ nn.toNat then 4 else 2) % 65536)

/-- `SE Vx, Vy` and `SNE Vx, Vy` add 4 or 2 to `pc` and change nothing else; with x = y the one always skips, the other never. -/
def Obligations.SkipOnRegisters : Prop :=
  ∀ x y s,
    (∃ t, exec (.seReg x y) s = .next t ∧ unchangedBut [.pc] s t ∧
      t.pc.toNat = (s.pc.toNat + if (reg s x).toNat = (reg s y).toNat then 4 else 2) % 65536) ∧
    (∃ t, exec (.sneReg x y) s = .next t ∧ unchangedBut [.pc] s t ∧
      t.pc.toNat = (s.pc.toNat + if (reg s x).toNat ≠ (reg s y).toNat then 4 else 2) % 65536)

/-- `SKP Vx` and `SKNP Vx` skip by whether a pressed key has the code `V[x]`. A code above 15 is of no key: the spec's decision
D27 (log 12). -/
def Obligations.SkipOnKey : Prop :=
  ∀ x s,
    (∃ t, exec (.skp x) s = .next t ∧ unchangedBut [.pc] s t ∧
      ((∃ k ∈ s.keys, k.toNat = (reg s x).toNat) → t.pc.toNat = (s.pc.toNat + 4) % 65536) ∧
      ((¬ ∃ k ∈ s.keys, k.toNat = (reg s x).toNat) → t.pc.toNat = (s.pc.toNat + 2) % 65536)) ∧
    (∃ t, exec (.sknp x) s = .next t ∧ unchangedBut [.pc] s t ∧
      ((¬ ∃ k ∈ s.keys, k.toNat = (reg s x).toNat) → t.pc.toNat = (s.pc.toNat + 4) % 65536) ∧
      ((∃ k ∈ s.keys, k.toNat = (reg s x).toNat) → t.pc.toNat = (s.pc.toNat + 2) % 65536))

/-! ### Register load and ALU -/

/-- `LD Vx, nn` and `LD Vx, Vy` write `V[x]` and `pc`, no flag. -/
def Obligations.LoadWritesRegister : Prop :=
  ∀ x y nn s,
    (∃ t, exec (.ldImm x nn) s = .next t ∧ reg t x = nn ∧
      t.pc.toNat = (s.pc.toNat + 2) % 65536 ∧ unchangedBut [.pc, .reg x] s t) ∧
    (∃ t, exec (.ldReg x y) s = .next t ∧ reg t x = reg s y ∧
      t.pc.toNat = (s.pc.toNat + 2) % 65536 ∧ unchangedBut [.pc, .reg x] s t)

/-- `ADD Vx, nn` wraps modulo 256 and writes no flag. -/
def Obligations.AddImmediateWraps : Prop :=
  ∀ x nn s, ∃ t, exec (.addImm x nn) s = .next t ∧ (reg t x).toNat = ((reg s x).toNat + nn.toNat) % 256 ∧
    t.pc.toNat = (s.pc.toNat + 2) % 65536 ∧ unchangedBut [.pc, .reg x] s t

/-- `OR`, `AND`, `XOR` act bit by bit into `V[x]` and write no flag. -/
def Obligations.LogicBitByBit : Prop :=
  ∀ x y s,
    (∃ t, exec (.orReg x y) s = .next t ∧
      (∀ k, k < 8 → (reg t x).getLsbD k = ((reg s x).getLsbD k || (reg s y).getLsbD k)) ∧
      t.pc.toNat = (s.pc.toNat + 2) % 65536 ∧ unchangedBut [.pc, .reg x] s t) ∧
    (∃ t, exec (.andReg x y) s = .next t ∧
      (∀ k, k < 8 → (reg t x).getLsbD k = ((reg s x).getLsbD k && (reg s y).getLsbD k)) ∧
      t.pc.toNat = (s.pc.toNat + 2) % 65536 ∧ unchangedBut [.pc, .reg x] s t) ∧
    (∃ t, exec (.xorReg x y) s = .next t ∧
      (∀ k, k < 8 → (reg t x).getLsbD k = ((reg s x).getLsbD k ^^ (reg s y).getLsbD k)) ∧
      t.pc.toNat = (s.pc.toNat + 2) % 65536 ∧ unchangedBut [.pc, .reg x] s t)

/-- `ADD Vx, Vy`: the sum modulo 256, and the carry in `V[0xF]`, which overwrites the sum when x = 0xF: the spec's
decision D25 (log 18). -/
def Obligations.AddRegistersSetsCarry : Prop :=
  ∀ x y s, ∃ t, exec (.addReg x y) s = .next t ∧
    (x ≠ 0xF → (reg t x).toNat = ((reg s x).toNat + (reg s y).toNat) % 256) ∧
    (reg t 0xF).toNat = (if 255 < (reg s x).toNat + (reg s y).toNat then 1 else 0) ∧
    t.pc.toNat = (s.pc.toNat + 2) % 65536 ∧ unchangedBut [.pc, .reg x, .reg 0xF] s t

/-- `SUB Vx, Vy` and `SUBN Vx, Vy`: the difference modulo 256, and no borrow in `V[0xF]`, which overwrites the difference when
x = 0xF, the spec's decision D25 (log 18); equal operands give flag 1. -/
def Obligations.SubtractSetsNoBorrow : Prop :=
  ∀ x y s,
    (∃ t, exec (.subReg x y) s = .next t ∧
      (x ≠ 0xF → ((reg t x).toNat : Int) = (((reg s x).toNat : Int) - (reg s y).toNat) % 256) ∧
      (reg t 0xF).toNat = (if (reg s y).toNat ≤ (reg s x).toNat then 1 else 0) ∧
      t.pc.toNat = (s.pc.toNat + 2) % 65536 ∧ unchangedBut [.pc, .reg x, .reg 0xF] s t) ∧
    (∃ t, exec (.subnReg x y) s = .next t ∧
      (x ≠ 0xF → ((reg t x).toNat : Int) = (((reg s y).toNat : Int) - (reg s x).toNat) % 256) ∧
      (reg t 0xF).toNat = (if (reg s x).toNat ≤ (reg s y).toNat then 1 else 0) ∧
      t.pc.toNat = (s.pc.toNat + 2) % 65536 ∧ unchangedBut [.pc, .reg x, .reg 0xF] s t)

/-- `SHR Vx`: a logical shift by one, and bit 0 in `V[0xF]`; with x = 0xF the result is 0, the spec's
decision D25 (log 18). The field `y` plays no part. -/
def Obligations.ShiftRightByOne : Prop :=
  ∀ x y s, ∃ t, exec (.shr x y) s = .next t ∧
    (x ≠ 0xF → (reg t x).toNat = (reg s x).toNat / 2 ∧ (reg t 0xF).toNat = (reg s x).toNat % 2) ∧
    (x = 0xF → reg t 0xF = 0) ∧
    t.pc.toNat = (s.pc.toNat + 2) % 65536 ∧ unchangedBut [.pc, .reg x, .reg 0xF] s t

/-- `SHL Vx`: a shift by one modulo 256, and in `V[0xF]` the whole old byte; under the other value of `QUIRK_SHL_FLAG`, bit 7.
With x = 0xF the flag is written first and then shifted. The default is the spec's decision D9, the order D25 (logs 8, 18). -/
def Obligations.ShiftLeftByOne : Prop :=
  (∀ x y s, exec (.shl x y) s = shlWith .fullByte x s) ∧
  ∀ q x s, ∃ t, shlWith q x s = .next t ∧
    (x ≠ 0xF → (reg t x).toNat = (reg s x).toNat * 2 % 256) ∧
    (x ≠ 0xF → q = .fullByte → reg t 0xF = reg s x) ∧
    (x ≠ 0xF → q = .msb → (reg t 0xF).toNat = (reg s x).toNat / 128) ∧
    (x = 0xF → q = .fullByte → (reg t 0xF).toNat = (reg s 0xF).toNat * 2 % 256) ∧
    (x = 0xF → q = .msb → (reg t 0xF).toNat = (reg s 0xF).toNat / 128 * 2) ∧
    t.pc.toNat = (s.pc.toNat + 2) % 65536 ∧ unchangedBut [.pc, .reg x, .reg 0xF] s t

/-- `RND Vx, nn`: the free byte of this draw under the mask, with no bit outside it; the next draw is another free byte. The
counter of draws is the model's own (log 17); the statement holds for every value of the free bytes, and says of
one draw only; that draws of equal number agree between two runs is the model's DESIGN CHOICE (log 17). -/
def Obligations.RandomUnderMask : Prop :=
  ∀ x nn s, ∃ t, exec (.rnd x nn) s = .next t ∧ reg t x = Config.freeByte s.draws &&& nn ∧
    (∀ k, nn.getLsbD k = false → (reg t x).getLsbD k = false) ∧
    t.draws = s.draws + 1 ∧ t.pc.toNat = (s.pc.toNat + 2) % 65536 ∧ unchangedBut [.pc, .reg x, .draws] s t

/-! ### Address register and memory -/

/-- `LD I, addr` sets `I` to the 12-bit address. -/
def Obligations.LoadIndexAddress : Prop :=
  ∀ nnn s, ∃ t, exec (.ldI nnn) s = .next t ∧ t.i.toNat = nnn.toNat ∧
    t.pc.toNat = (s.pc.toNat + 2) % 65536 ∧ unchangedBut [.pc, .index] s t

/-- `ADD I, Vx` adds modulo 65536 (the spec's decision D18, log 15) and `LD F, Vx` multiplies the whole byte by 5 (D28, log 31);
neither writes a flag. -/
def Obligations.IndexArithmetic : Prop :=
  ∀ x s,
    (∃ t, exec (.addI x) s = .next t ∧ t.i.toNat = (s.i.toNat + (reg s x).toNat) % 65536 ∧
      t.pc.toNat = (s.pc.toNat + 2) % 65536 ∧ unchangedBut [.pc, .index] s t) ∧
    (∃ t, exec (.ldF x) s = .next t ∧ t.i.toNat = (reg s x).toNat * 5 ∧
      t.pc.toNat = (s.pc.toNat + 2) % 65536 ∧ unchangedBut [.pc, .index] s t)

/-- `LD B, Vx`: at this hardware's `QUIRK_BCD` the units digit alone is left, at `I`; under the other value the three digits
stand at `I`, `I + 1`, `I + 2`. Out of range it raises AddressOutOfRange. The default is the spec's decision D10, the fault D15
(logs 9, 13). -/
def Obligations.DecimalDigitsStored : Prop :=
  (∀ x s, exec (.ldB x) s = storeDigits .sameAddress (reg s x) s) ∧
  (∀ b s, indexBase s ≤ 4095 → ∃ t, storeDigits .sameAddress b s = .next t ∧
    (readByte t (indexBase s)).toNat = b.toNat % 10 ∧
    t.pc.toNat = (s.pc.toNat + 2) % 65536 ∧ unchangedBut [.pc, .byte (indexBase s)] s t) ∧
  (∀ b s, indexBase s + 2 ≤ 4095 → ∃ t, storeDigits .threeAddress b s = .next t ∧
    (readByte t (indexBase s)).toNat = b.toNat / 100 ∧
    (readByte t (indexBase s + 1)).toNat = b.toNat / 10 % 10 ∧
    (readByte t (indexBase s + 2)).toNat = b.toNat % 10 ∧
    t.pc.toNat = (s.pc.toNat + 2) % 65536 ∧
    unchangedBut [.pc, .byte (indexBase s), .byte (indexBase s + 1), .byte (indexBase s + 2)] s t) ∧
  (∀ b s, 4095 < indexBase s → storeDigits .sameAddress b s = .fault (.addressOutOfRange (indexBase s))) ∧
  (∀ b s, 4095 < indexBase s + 2 → storeDigits .threeAddress b s = .fault (.addressOutOfRange (max (indexBase s) 4096)))

/-- `LD [I], Vx` stores `V[0]` to `V[x]` at `I` to `I + x` and changes nothing else; when one of the addresses is above 4095 it
raises AddressOutOfRange and stores nothing: the spec's decision D15 (log 13); that `I` stays is D29 (log 31). -/
def Obligations.StoreRegistersAtIndex : Prop :=
  ∀ x s,
    (indexBase s + x.toNat ≤ 4095 → ∃ t, exec (.storeRegs x) s = .next t ∧
      (∀ r : Reg, r.toNat ≤ x.toNat → readByte t (indexBase s + r.toNat) = reg s r) ∧
      t.pc.toNat = (s.pc.toNat + 2) % 65536 ∧
      ∀ p, p ≠ .pc → (∀ k, k ≤ x.toNat → p ≠ .byte (indexBase s + k)) → sameAt p s t) ∧
    (4095 < indexBase s + x.toNat → exec (.storeRegs x) s = .fault (.addressOutOfRange (max (indexBase s) 4096)))

/-- `LD Vx, [I]` loads `V[0]` to `V[x]` from `I` to `I + x` and changes nothing else; when one of the addresses is above 4095 it
raises AddressOutOfRange and loads nothing: the spec's decision D15 (log 13); that `I` stays is D29 (log 31). -/
def Obligations.LoadRegistersFromIndex : Prop :=
  ∀ x s,
    (indexBase s + x.toNat ≤ 4095 → ∃ t, exec (.loadRegs x) s = .next t ∧
      (∀ r : Reg, r.toNat ≤ x.toNat → reg t r = readByte s (indexBase s + r.toNat)) ∧
      t.pc.toNat = (s.pc.toNat + 2) % 65536 ∧
      ∀ p, p ≠ .pc → (∀ r : Reg, r.toNat ≤ x.toNat → p ≠ .reg r) → sameAt p s t) ∧
    (4095 < indexBase s + x.toNat → exec (.loadRegs x) s = .fault (.addressOutOfRange (max (indexBase s) 4096)))

/-- A store is seen by the next fetch of those bytes: after `LD [I], Vx`, a fetch at `I + k` reads `V[k]` and `V[k + 1]`. -/
def Obligations.StoreIsSeenByFetch : Prop :=
  ∀ x s t u k, exec (.storeRegs x) s = .next t → u.mem = t.mem → k + 1 ≤ x.toNat → u.pc.toNat = indexBase s + k →
    fetch u = .ok (joinBytes (reg s (BitVec.ofNat 4 k)) (reg s (BitVec.ofNat 4 (k + 1))))

/-! ### Display -/

/-- `CLS` clears every cell and sets `dirty`, also when the display was blank: the spec's decision D31 (log 19). -/
def Obligations.ClearDisplayBlanks : Prop :=
  ∀ s, ∃ t, exec .cls s = .next t ∧ (∀ px py, pixel t px py = false) ∧ t.dirty = true ∧
    t.pc.toNat = (s.pc.toNat + 2) % 65536 ∧
    ∀ p, p ≠ .pc → p ≠ .dirty → (∀ px py, p ≠ .cell px py) → sameAt p s t

/-- `DRW Vx, Vy, n` toggles exactly the cells of the set bits of the sprite, wrapped around both edges; `V[0xF]` says whether a lit
cell went out; `dirty` is set exactly if a cell was toggled. The wrap is the spec's decision D11, the bit order D12, the order of
reads and writes D13, the fault D15 (logs 10, 11, 13). -/
def Obligations.DrawSpriteByXor : Prop :=
  ∀ x y n s,
    (n.toNat = 0 ∨ indexBase s + n.toNat - 1 ≤ 4095 → ∃ t, exec (.drw x y n) s = .next t ∧
      (∀ px py, pixel t px py = (pixel s px py ^^ spriteToggles x y n s px py)) ∧
      (reg t 0xF = 1 ∨ reg t 0xF = 0) ∧
      (reg t 0xF = 1 ↔ ∃ px py, spriteToggles x y n s px py = true ∧ pixel s px py = true) ∧
      (t.dirty = true ↔ s.dirty = true ∨ ∃ px py, spriteToggles x y n s px py = true) ∧
      t.pc.toNat = (s.pc.toNat + 2) % 65536 ∧
      ∀ p, p ≠ .pc → p ≠ .reg 0xF → p ≠ .dirty → (∀ px py, p ≠ .cell px py) → sameAt p s t) ∧
    (n.toNat ≠ 0 → 4095 < indexBase s + n.toNat - 1 →
      exec (.drw x y n) s = .fault (.addressOutOfRange (max (indexBase s) 4096)))

/-- Drawing the same sprite twice at the same position restores the display, and the second draw reports an erasure exactly if
the first turned a cell on (spec/44_display.md R151, corner case f). The second draw may come from any state with the display the
first left and the same position, `I` and sprite bytes. Which cells a sprite toggles rests on the spec's decisions D11, the wrap
(log 10), and D12, the bit order (log 11). -/
def Obligations.DrawTwiceRestores : Prop :=
  ∀ x y n s t u w, exec (.drw x y n) s = .next t →
    u.display = t.display → reg u x = reg s x → reg u y = reg s y → u.i = s.i →
    (∀ k, k < n.toNat → readByte u (indexBase s + k) = readByte s (indexBase s + k)) →
    exec (.drw x y n) u = .next w →
    w.display = s.display ∧
    (reg w 0xF = 1 ↔ ∃ px py, spriteToggles x y n s px py = true ∧ pixel s px py = false)

/-! ### Keyboard and timers -/

/-- `LD Vx, DT` reads the delay timer and leaves it; `LD DT, Vx` sets it. -/
def Obligations.DelayTimerMoves : Prop :=
  ∀ x s,
    (∃ t, exec (.ldVxDt x) s = .next t ∧ reg t x = s.dt ∧
      t.pc.toNat = (s.pc.toNat + 2) % 65536 ∧ unchangedBut [.pc, .reg x] s t) ∧
    (∃ t, exec (.ldDt x) s = .next t ∧ t.dt = reg s x ∧
      t.pc.toNat = (s.pc.toNat + 2) % 65536 ∧ unchangedBut [.pc, .delay] s t)

/-- `LD ST, Vx` sets the speaker countdown and leaves `sounding`: the spec's decision D32 (log 20). -/
def Obligations.SpeakerCountdownSet : Prop :=
  ∀ x s, ∃ t, exec (.ldSt x) s = .next t ∧ t.st = reg s x ∧ t.sounding = s.sounding ∧
    t.pc.toNat = (s.pc.toNat + 2) % 65536 ∧ unchangedBut [.pc, .speaker] s t

/-- `LD Vx, K`: with no key pressed nothing at all changes; else `V[x]` is the most recently inserted key and `pc` advances. The
tie-break is the spec's decision D14 (log 12). -/
def Obligations.WaitForKey : Prop :=
  ∀ x s,
    (s.keys = [] → exec (.ldVxK x) s = .next s) ∧
    (∀ older k, s.keys = older ++ [k] → ∃ t, exec (.ldVxK x) s = .next t ∧ (reg t x).toNat = k.toNat ∧
      t.pc.toNat = (s.pc.toNat + 2) % 65536 ∧ unchangedBut [.pc, .reg x] s t)

/-- `tick` counts both timers down to 0 and no further, and `sounding` says whether `ST` was above 0 before it. -/
def Obligations.TickCountsDown : Prop :=
  ∀ s, ∃ t, command .tick s = .next t ∧ t.dt.toNat = s.dt.toNat - 1 ∧ t.st.toNat = s.st.toNat - 1 ∧
    (t.sounding = true ↔ 0 < s.st.toNat) ∧ unchangedBut [.delay, .speaker, .sounding] s t

/-- After n ticks in a row both timers have fallen by n, stopping at 0, and `sounding` is true after exactly the first `ST` of
them. -/
def Obligations.SoundingLastsCountdownTicks : Prop :=
  ∀ n s, (runCommands (List.replicate n .tick) s).dt.toNat = s.dt.toNat - n ∧
    (runCommands (List.replicate n .tick) s).st.toNat = s.st.toNat - n ∧
    (0 < n → ((runCommands (List.replicate n .tick) s).sounding = true ↔ n ≤ s.st.toNat))

/-- `press(k)` appends an absent key and leaves a pressed one in its place; `release(k)` removes a key and keeps the order of the
rest; neither changes anything else. The order is the spec's decision D14 (log 12). -/
def Obligations.PressAndRelease : Prop :=
  ∀ k s,
    (∃ t, command (.press k) s = .next t ∧ (k ∈ s.keys → t.keys = s.keys) ∧ (k ∉ s.keys → t.keys = s.keys ++ [k]) ∧
      unchangedBut [.keys] s t) ∧
    (∃ t, command (.release k) s = .next t ∧ k ∉ t.keys ∧ t.keys.Sublist s.keys ∧ (∀ j, j ≠ k → (j ∈ t.keys ↔ j ∈ s.keys)) ∧
      unchangedBut [.keys] s t)

/-- `loadProgram` copies the image to the load offset upward and changes nothing else; an image that does not fit is refused and
nothing is written, the spec's decision D20; the length in the refusal is the model's own (log 23). -/
def Obligations.LoadProgramCopies : Prop :=
  ∀ image s,
    (params.loadOffset.toNat + image.length ≤ 4096 → ∃ t, command (.loadProgram image) s = .next t ∧
      (∀ k (h : k < image.length), readByte t (params.loadOffset.toNat + k) = image[k]) ∧
      ∀ p, (∀ k, k < image.length → p ≠ .byte (params.loadOffset.toNat + k)) → sameAt p s t) ∧
    (4096 < params.loadOffset.toNat + image.length →
      command (.loadProgram image) s = .refused (.outOfBounds image.length) ∧ afterCommand (.loadProgram image) s = s)

/-- `ackDisplay` clears `dirty` and changes nothing else, so that of what the outside observes only `dirty` changes: the spec's own
command, decision D21 (log 19). -/
def Obligations.AckDisplayClearsDirty : Prop :=
  ∀ s, ∃ t, command .ackDisplay s = .next t ∧ observe t = { observe s with dirty := false } ∧ unchangedBut [.dirty] s t

/-! ### The whole machine -/

/-- Every step keeps the invariant: memory in canonical form, keys distinct, saved program counters at most 4094, `pc` at most
0x10FE. The canonical form is the model's own DESIGN CHOICE (log 24); distinct keys rest on the spec's decision D14 (log 12). -/
def Obligations.StepKeepsInvariant : Prop :=
  ∀ s t, GoodState s → step s = .next t → GoodState t

/-- Every command that answers keeps the invariant, from every state that meets it; and so does every command of the machine at any
other values of the parameters (spec/00_scope.md R6) that are well-formed. The canonical form of memory is the model's own DESIGN
CHOICE (log 24); distinct keys rest on the spec's decision D14 (log 12). -/
def Obligations.CommandKeepsInvariant : Prop :=
  (∀ d s t, GoodState s → command d s = .next t → GoodState t) ∧
  ∀ c : Config, c.wf = true → ∀ d s t, GoodState s → commandAt c d s = .next t → GoodState t

/-- The invariant holds after every schedule of commands from construction, whatever the order and the rates. The canonical form of
memory is the model's own DESIGN CHOICE (log 24); distinct keys rest on the spec's decision D14 (log 12). -/
def Obligations.EveryScheduleKeepsInvariant : Prop :=
  ∀ cs, GoodState (runCommands cs State.reset)

/-- No instruction changes a place outside what the access tables give it (spec/10_state.md R22, R35). Beside them `RND` may write
the counter of draws, a place that is the model's own (log 17); which bytes `LD B` writes rests on the spec's decision D10 (log 9). -/
def Obligations.ExecWritesOnlyItsPlaces : Prop :=
  ∀ i s t, exec i s = .next t → ∀ p, ¬ mayWrite i s p → sameAt p s t

/-- No step changes the keyboard or `sounding`, none clears `dirty`, and a step changes the delay timer only by executing
`LD DT, Vx`. That no step, `LD ST, Vx` included, changes `sounding` is the spec's decision D32 (log 20). -/
def Obligations.StepLeavesDevicesAlone : Prop :=
  ∀ s t, step s = .next t → t.keys = s.keys ∧ t.sounding = s.sounding ∧ (s.dirty = true → t.dirty = true) ∧
    (t.dt ≠ s.dt → ∃ x, fetch s = .ok (encode (.ldDt x)) ∧ t.dt = reg s x)

/-- No instruction reads `ST`, `sounding` or `dirty`: states that differ only there step to states that differ only there, or raise
the same exception. The two states have the same counter of draws, so a `RND` is given the same byte in both: the model's DESIGN
CHOICE (log 17), where the spec has the byte an input that two runs need not share (D24). -/
def Obligations.OutputsAreInvisible : Prop :=
  ∀ s s', sameButOutputs s s' →
    (∀ t, step s = .next t → ∃ t', step s' = .next t' ∧ sameButOutputs t t') ∧
    (∀ f, step s = .fault f → step s' = .fault f)

/-- The order in which keys were pressed, the spec's decision D14 (log 12), is seen by `LD Vx, K` alone. The two states have the same
counter of draws, so `RND` is given the same byte in both: the model's DESIGN CHOICE (log 17), not the spec's (D24). -/
def Obligations.KeyOrderSeenOnlyByWait : Prop :=
  ∀ i s ks, ks.Perm s.keys → (∀ x, i ≠ .ldVxK x) →
    (∀ t, exec i s = .next t → exec i { s with keys := ks } = .next { t with keys := ks }) ∧
    (∀ f, exec i s = .fault f → exec i { s with keys := ks } = .fault f)

/-- The execute phase raises exactly when the table of exceptions says, with that exception, and otherwise completes: no
instruction is refused. -/
def Obligations.ExecRaisesOnlyAsListed : Prop :=
  ∀ i s, (∀ f, raises i s = some f → exec i s = .fault f) ∧ (raises i s = none → ∃ t, exec i s = .next t)

/-- A raise repeats: after the raised step itself, a tick, a key event or `ackDisplay`, a further step raises the same
exception. -/
def Obligations.RaiseRepeats : Prop :=
  ∀ s f, step s = .fault f →
    step (afterCommand .step s) = .fault f ∧ step (afterCommand .tick s) = .fault f ∧
    step (afterCommand .ackDisplay s) = .fault f ∧
    ∀ k, step (afterCommand (.press k) s) = .fault f ∧ step (afterCommand (.release k) s) = .fault f

/-- A program at a `JP` to itself stays there: every further step answers, and with the same state. The spec's convention for the end
of a run, its decision D26 (log 28). -/
def Obligations.SelfLoopStaysForEver : Prop :=
  ∀ n s, selfLoop s →
    Host.Core.run core n s = .next s ∧ command .step s = .next s ∧ runCommands (List.replicate n .step) s = s

/-! ### The machine at other values of the parameters (spec/00_scope.md R6) -/

/-- At the spec's defaults (spec/00_scope.md R6) the machine with parameters is this machine: execution, step and every command. That
`exec`, `step` and `command` are the machine at `params`, with `execAt`, `stepAt` and `commandAt` beside them for any other values, is
the model's own arrangement and no rule of the spec: a DESIGN CHOICE (log 26). -/
def Obligations.DefaultsAreTheMachine : Prop :=
  (∀ i s, execAt params i s = exec i s) ∧ (∀ s, stepAt params s = step s) ∧ ∀ d s, commandAt params d s = command d s

/-- The `reset` command at any values of `LOAD_OFFSET`, `GLYPH_TABLE`, `RESET_V`, `RESET_I` and `RESET_DT`: each register has its
parameter's value, memory holds the parameter's glyph table at 0 to 79 and else 0, and the keyboard is kept. That the parameters are
open is the spec's decisions D2, D3, D4; the zero memory D5, the kept keyboard D6 (logs 2 to 6). -/
def Obligations.ResetAtParameters : Prop :=
  ∀ c : Config, c.glyphsComplete = true → ∀ s, ∃ t, commandAt c .reset s = .next t ∧
    (∀ r, reg t r = c.resetV) ∧ t.i = c.resetI ∧ t.pc = c.loadOffset ∧ t.stack = [] ∧ t.dt = c.resetDt ∧ t.st = 0 ∧
    t.sounding = false ∧ (∀ a, a < 80 → readByte t a = c.glyphTable.getD a 0) ∧ (∀ a, 80 ≤ a → readByte t a = 0) ∧
    (∀ px py, pixel t px py = false) ∧ t.dirty = true ∧ t.keys = s.keys

/-- `loadProgram` at any value of `LOAD_OFFSET`: the image is copied there upward and nothing else changes; an image that does not
fit is refused. The parameter is the spec's decision D2, the refusal D20 (logs 2, 23); the length in the refusal is the model's own
(log 23). -/
def Obligations.LoadAtParameters : Prop :=
  ∀ (c : Config) image s,
    (c.loadOffset.toNat + image.length ≤ 4096 → ∃ t, commandAt c (.loadProgram image) s = .next t ∧
      (∀ k (h : k < image.length), readByte t (c.loadOffset.toNat + k) = image[k]) ∧
      ∀ p, (∀ k, k < image.length → p ≠ .byte (c.loadOffset.toNat + k)) → sameAt p s t) ∧
    (4096 < c.loadOffset.toNat + image.length →
      commandAt c (.loadProgram image) s = .refused (.outOfBounds image.length))
end

