-- ==== Sys2Proof/Laws/State.lean ====
section
/-! SUPPORT. One lemma per field per update of the state, and one per derived read that an update leaves alone, each true by
unfolding, so that no later proof unfolds a record update. -/

namespace Sys2Proof.Machine

/-! ### `State.reset` and `State.resetAt` -/

@[simp] theorem reset_v : State.reset.v = Vector.replicate 16 params.resetV := rfl
@[simp] theorem reset_i : State.reset.i = params.resetI := rfl
@[simp] theorem reset_pc : State.reset.pc = params.loadOffset := rfl
@[simp] theorem reset_stack : State.reset.stack = [] := rfl
@[simp] theorem reset_dt : State.reset.dt = params.resetDt := rfl
@[simp] theorem reset_st : State.reset.st = 0 := rfl
@[simp] theorem reset_sounding : State.reset.sounding = false := rfl
@[simp] theorem reset_mem : State.reset.mem = [] := rfl
@[simp] theorem reset_dirty : State.reset.dirty = true := rfl
@[simp] theorem reset_keys : State.reset.keys = [] := rfl
@[simp] theorem reset_draws : State.reset.draws = 0 := rfl
@[simp] theorem reset_display : State.reset.display = blankDisplay := rfl
@[simp] theorem resetAt_v (c : Config) : (State.resetAt c).v = Vector.replicate 16 c.resetV := rfl
@[simp] theorem resetAt_i (c : Config) : (State.resetAt c).i = c.resetI := rfl
@[simp] theorem resetAt_pc (c : Config) : (State.resetAt c).pc = c.loadOffset := rfl
@[simp] theorem resetAt_stack (c : Config) : (State.resetAt c).stack = [] := rfl
@[simp] theorem resetAt_dt (c : Config) : (State.resetAt c).dt = c.resetDt := rfl
@[simp] theorem resetAt_st (c : Config) : (State.resetAt c).st = 0 := rfl
@[simp] theorem resetAt_sounding (c : Config) : (State.resetAt c).sounding = false := rfl
@[simp] theorem resetAt_mem (c : Config) : (State.resetAt c).mem = cellsWhereDiffer 0 c.glyphTable params.glyphTable := rfl
@[simp] theorem resetAt_display (c : Config) : (State.resetAt c).display = blankDisplay := rfl
@[simp] theorem resetAt_dirty (c : Config) : (State.resetAt c).dirty = true := rfl
@[simp] theorem resetAt_keys (c : Config) : (State.resetAt c).keys = [] := rfl
@[simp] theorem resetAt_draws (c : Config) : (State.resetAt c).draws = 0 := rfl

/-! ### `setReg` -/

@[simp] theorem setReg_v (r : Reg) (b : Byte) (s : State) : (setReg r b s).v = s.v.set r.toNat b r.isLt := rfl
@[simp] theorem setReg_i (r : Reg) (b : Byte) (s : State) : (setReg r b s).i = s.i := rfl
@[simp] theorem setReg_pc (r : Reg) (b : Byte) (s : State) : (setReg r b s).pc = s.pc := rfl
@[simp] theorem setReg_stack (r : Reg) (b : Byte) (s : State) : (setReg r b s).stack = s.stack := rfl
@[simp] theorem setReg_dt (r : Reg) (b : Byte) (s : State) : (setReg r b s).dt = s.dt := rfl
@[simp] theorem setReg_st (r : Reg) (b : Byte) (s : State) : (setReg r b s).st = s.st := rfl
@[simp] theorem setReg_sounding (r : Reg) (b : Byte) (s : State) : (setReg r b s).sounding = s.sounding := rfl
@[simp] theorem setReg_mem (r : Reg) (b : Byte) (s : State) : (setReg r b s).mem = s.mem := rfl
@[simp] theorem setReg_display (r : Reg) (b : Byte) (s : State) : (setReg r b s).display = s.display := rfl
@[simp] theorem setReg_dirty (r : Reg) (b : Byte) (s : State) : (setReg r b s).dirty = s.dirty := rfl
@[simp] theorem setReg_keys (r : Reg) (b : Byte) (s : State) : (setReg r b s).keys = s.keys := rfl
@[simp] theorem setReg_draws (r : Reg) (b : Byte) (s : State) : (setReg r b s).draws = s.draws := rfl
@[simp] theorem readByte_setReg (r : Reg) (b : Byte) (s : State) (ad : Nat) : readByte (setReg r b s) ad = readByte s ad := rfl
@[simp] theorem pixel_setReg (r : Reg) (b : Byte) (s : State) (cx : Col) (cy : Row) : pixel (setReg r b s) cx cy = pixel s cx cy := rfl
@[simp] theorem keyPressed_setReg (r : Reg) (b : Byte) (s : State) (k : Byte) : keyPressed (setReg r b s) k = keyPressed s k := rfl
@[simp] theorem indexBase_setReg (r : Reg) (b : Byte) (s : State) : indexBase (setReg r b s) = indexBase s := rfl

/-! ### `setIndex` -/

@[simp] theorem setIndex_v (a : Addr) (s : State) : (setIndex a s).v = s.v := rfl
@[simp] theorem setIndex_i (a : Addr) (s : State) : (setIndex a s).i = a := rfl
@[simp] theorem setIndex_pc (a : Addr) (s : State) : (setIndex a s).pc = s.pc := rfl
@[simp] theorem setIndex_stack (a : Addr) (s : State) : (setIndex a s).stack = s.stack := rfl
@[simp] theorem setIndex_dt (a : Addr) (s : State) : (setIndex a s).dt = s.dt := rfl
@[simp] theorem setIndex_st (a : Addr) (s : State) : (setIndex a s).st = s.st := rfl
@[simp] theorem setIndex_sounding (a : Addr) (s : State) : (setIndex a s).sounding = s.sounding := rfl
@[simp] theorem setIndex_mem (a : Addr) (s : State) : (setIndex a s).mem = s.mem := rfl
@[simp] theorem setIndex_display (a : Addr) (s : State) : (setIndex a s).display = s.display := rfl
@[simp] theorem setIndex_dirty (a : Addr) (s : State) : (setIndex a s).dirty = s.dirty := rfl
@[simp] theorem setIndex_keys (a : Addr) (s : State) : (setIndex a s).keys = s.keys := rfl
@[simp] theorem setIndex_draws (a : Addr) (s : State) : (setIndex a s).draws = s.draws := rfl
@[simp] theorem reg_setIndex (a : Addr) (s : State) (q : Reg) : reg (setIndex a s) q = reg s q := rfl
@[simp] theorem readByte_setIndex (a : Addr) (s : State) (ad : Nat) : readByte (setIndex a s) ad = readByte s ad := rfl
@[simp] theorem pixel_setIndex (a : Addr) (s : State) (cx : Col) (cy : Row) : pixel (setIndex a s) cx cy = pixel s cx cy := rfl
@[simp] theorem keyPressed_setIndex (a : Addr) (s : State) (k : Byte) : keyPressed (setIndex a s) k = keyPressed s k := rfl

/-! ### `setDelay` -/

@[simp] theorem setDelay_v (b : Byte) (s : State) : (setDelay b s).v = s.v := rfl
@[simp] theorem setDelay_i (b : Byte) (s : State) : (setDelay b s).i = s.i := rfl
@[simp] theorem setDelay_pc (b : Byte) (s : State) : (setDelay b s).pc = s.pc := rfl
@[simp] theorem setDelay_stack (b : Byte) (s : State) : (setDelay b s).stack = s.stack := rfl
@[simp] theorem setDelay_dt (b : Byte) (s : State) : (setDelay b s).dt = b := rfl
@[simp] theorem setDelay_st (b : Byte) (s : State) : (setDelay b s).st = s.st := rfl
@[simp] theorem setDelay_sounding (b : Byte) (s : State) : (setDelay b s).sounding = s.sounding := rfl
@[simp] theorem setDelay_mem (b : Byte) (s : State) : (setDelay b s).mem = s.mem := rfl
@[simp] theorem setDelay_display (b : Byte) (s : State) : (setDelay b s).display = s.display := rfl
@[simp] theorem setDelay_dirty (b : Byte) (s : State) : (setDelay b s).dirty = s.dirty := rfl
@[simp] theorem setDelay_keys (b : Byte) (s : State) : (setDelay b s).keys = s.keys := rfl
@[simp] theorem setDelay_draws (b : Byte) (s : State) : (setDelay b s).draws = s.draws := rfl
@[simp] theorem reg_setDelay (b : Byte) (s : State) (q : Reg) : reg (setDelay b s) q = reg s q := rfl
@[simp] theorem readByte_setDelay (b : Byte) (s : State) (ad : Nat) : readByte (setDelay b s) ad = readByte s ad := rfl
@[simp] theorem pixel_setDelay (b : Byte) (s : State) (cx : Col) (cy : Row) : pixel (setDelay b s) cx cy = pixel s cx cy := rfl
@[simp] theorem keyPressed_setDelay (b : Byte) (s : State) (k : Byte) : keyPressed (setDelay b s) k = keyPressed s k := rfl
@[simp] theorem indexBase_setDelay (b : Byte) (s : State) : indexBase (setDelay b s) = indexBase s := rfl

/-! ### `setSpeaker` -/

@[simp] theorem setSpeaker_v (b : Byte) (s : State) : (setSpeaker b s).v = s.v := rfl
@[simp] theorem setSpeaker_i (b : Byte) (s : State) : (setSpeaker b s).i = s.i := rfl
@[simp] theorem setSpeaker_pc (b : Byte) (s : State) : (setSpeaker b s).pc = s.pc := rfl
@[simp] theorem setSpeaker_stack (b : Byte) (s : State) : (setSpeaker b s).stack = s.stack := rfl
@[simp] theorem setSpeaker_dt (b : Byte) (s : State) : (setSpeaker b s).dt = s.dt := rfl
@[simp] theorem setSpeaker_st (b : Byte) (s : State) : (setSpeaker b s).st = b := rfl
@[simp] theorem setSpeaker_sounding (b : Byte) (s : State) : (setSpeaker b s).sounding = s.sounding := rfl
@[simp] theorem setSpeaker_mem (b : Byte) (s : State) : (setSpeaker b s).mem = s.mem := rfl
@[simp] theorem setSpeaker_display (b : Byte) (s : State) : (setSpeaker b s).display = s.display := rfl
@[simp] theorem setSpeaker_dirty (b : Byte) (s : State) : (setSpeaker b s).dirty = s.dirty := rfl
@[simp] theorem setSpeaker_keys (b : Byte) (s : State) : (setSpeaker b s).keys = s.keys := rfl
@[simp] theorem setSpeaker_draws (b : Byte) (s : State) : (setSpeaker b s).draws = s.draws := rfl
@[simp] theorem reg_setSpeaker (b : Byte) (s : State) (q : Reg) : reg (setSpeaker b s) q = reg s q := rfl
@[simp] theorem readByte_setSpeaker (b : Byte) (s : State) (ad : Nat) : readByte (setSpeaker b s) ad = readByte s ad := rfl
@[simp] theorem pixel_setSpeaker (b : Byte) (s : State) (cx : Col) (cy : Row) : pixel (setSpeaker b s) cx cy = pixel s cx cy := rfl
@[simp] theorem keyPressed_setSpeaker (b : Byte) (s : State) (k : Byte) : keyPressed (setSpeaker b s) k = keyPressed s k := rfl
@[simp] theorem indexBase_setSpeaker (b : Byte) (s : State) : indexBase (setSpeaker b s) = indexBase s := rfl

/-! ### `jumpTo` -/

@[simp] theorem jumpTo_v (a : Addr) (s : State) : (jumpTo a s).v = s.v := rfl
@[simp] theorem jumpTo_i (a : Addr) (s : State) : (jumpTo a s).i = s.i := rfl
@[simp] theorem jumpTo_pc (a : Addr) (s : State) : (jumpTo a s).pc = a := rfl
@[simp] theorem jumpTo_stack (a : Addr) (s : State) : (jumpTo a s).stack = s.stack := rfl
@[simp] theorem jumpTo_dt (a : Addr) (s : State) : (jumpTo a s).dt = s.dt := rfl
@[simp] theorem jumpTo_st (a : Addr) (s : State) : (jumpTo a s).st = s.st := rfl
@[simp] theorem jumpTo_sounding (a : Addr) (s : State) : (jumpTo a s).sounding = s.sounding := rfl
@[simp] theorem jumpTo_mem (a : Addr) (s : State) : (jumpTo a s).mem = s.mem := rfl
@[simp] theorem jumpTo_display (a : Addr) (s : State) : (jumpTo a s).display = s.display := rfl
@[simp] theorem jumpTo_dirty (a : Addr) (s : State) : (jumpTo a s).dirty = s.dirty := rfl
@[simp] theorem jumpTo_keys (a : Addr) (s : State) : (jumpTo a s).keys = s.keys := rfl
@[simp] theorem jumpTo_draws (a : Addr) (s : State) : (jumpTo a s).draws = s.draws := rfl
@[simp] theorem reg_jumpTo (a : Addr) (s : State) (q : Reg) : reg (jumpTo a s) q = reg s q := rfl
@[simp] theorem readByte_jumpTo (a : Addr) (s : State) (ad : Nat) : readByte (jumpTo a s) ad = readByte s ad := rfl
@[simp] theorem pixel_jumpTo (a : Addr) (s : State) (cx : Col) (cy : Row) : pixel (jumpTo a s) cx cy = pixel s cx cy := rfl
@[simp] theorem keyPressed_jumpTo (a : Addr) (s : State) (k : Byte) : keyPressed (jumpTo a s) k = keyPressed s k := rfl
@[simp] theorem indexBase_jumpTo (a : Addr) (s : State) : indexBase (jumpTo a s) = indexBase s := rfl

/-! ### `advance` -/

@[simp] theorem advance_v (s : State) : (advance s).v = s.v := rfl
@[simp] theorem advance_i (s : State) : (advance s).i = s.i := rfl
@[simp] theorem advance_pc (s : State) : (advance s).pc = s.pc + 2 := rfl
@[simp] theorem advance_stack (s : State) : (advance s).stack = s.stack := rfl
@[simp] theorem advance_dt (s : State) : (advance s).dt = s.dt := rfl
@[simp] theorem advance_st (s : State) : (advance s).st = s.st := rfl
@[simp] theorem advance_sounding (s : State) : (advance s).sounding = s.sounding := rfl
@[simp] theorem advance_mem (s : State) : (advance s).mem = s.mem := rfl
@[simp] theorem advance_display (s : State) : (advance s).display = s.display := rfl
@[simp] theorem advance_dirty (s : State) : (advance s).dirty = s.dirty := rfl
@[simp] theorem advance_keys (s : State) : (advance s).keys = s.keys := rfl
@[simp] theorem advance_draws (s : State) : (advance s).draws = s.draws := rfl
@[simp] theorem reg_advance (s : State) (q : Reg) : reg (advance s) q = reg s q := rfl
@[simp] theorem readByte_advance (s : State) (ad : Nat) : readByte (advance s) ad = readByte s ad := rfl
@[simp] theorem pixel_advance (s : State) (cx : Col) (cy : Row) : pixel (advance s) cx cy = pixel s cx cy := rfl
@[simp] theorem keyPressed_advance (s : State) (k : Byte) : keyPressed (advance s) k = keyPressed s k := rfl
@[simp] theorem indexBase_advance (s : State) : indexBase (advance s) = indexBase s := rfl

/-! ### `skipIf` -/

@[simp] theorem skipIf_v (c : Bool) (s : State) : (skipIf c s).v = s.v := rfl
@[simp] theorem skipIf_i (c : Bool) (s : State) : (skipIf c s).i = s.i := rfl
@[simp] theorem skipIf_pc (c : Bool) (s : State) : (skipIf c s).pc = s.pc + (if c then 4 else 2) := rfl
@[simp] theorem skipIf_stack (c : Bool) (s : State) : (skipIf c s).stack = s.stack := rfl
@[simp] theorem skipIf_dt (c : Bool) (s : State) : (skipIf c s).dt = s.dt := rfl
@[simp] theorem skipIf_st (c : Bool) (s : State) : (skipIf c s).st = s.st := rfl
@[simp] theorem skipIf_sounding (c : Bool) (s : State) : (skipIf c s).sounding = s.sounding := rfl
@[simp] theorem skipIf_mem (c : Bool) (s : State) : (skipIf c s).mem = s.mem := rfl
@[simp] theorem skipIf_display (c : Bool) (s : State) : (skipIf c s).display = s.display := rfl
@[simp] theorem skipIf_dirty (c : Bool) (s : State) : (skipIf c s).dirty = s.dirty := rfl
@[simp] theorem skipIf_keys (c : Bool) (s : State) : (skipIf c s).keys = s.keys := rfl
@[simp] theorem skipIf_draws (c : Bool) (s : State) : (skipIf c s).draws = s.draws := rfl
@[simp] theorem reg_skipIf (c : Bool) (s : State) (q : Reg) : reg (skipIf c s) q = reg s q := rfl
@[simp] theorem readByte_skipIf (c : Bool) (s : State) (ad : Nat) : readByte (skipIf c s) ad = readByte s ad := rfl
@[simp] theorem pixel_skipIf (c : Bool) (s : State) (cx : Col) (cy : Row) : pixel (skipIf c s) cx cy = pixel s cx cy := rfl
@[simp] theorem keyPressed_skipIf (c : Bool) (s : State) (k : Byte) : keyPressed (skipIf c s) k = keyPressed s k := rfl
@[simp] theorem indexBase_skipIf (c : Bool) (s : State) : indexBase (skipIf c s) = indexBase s := rfl

/-! ### `setStack` -/

@[simp] theorem setStack_v (as : List Addr) (s : State) : (setStack as s).v = s.v := rfl
@[simp] theorem setStack_i (as : List Addr) (s : State) : (setStack as s).i = s.i := rfl
@[simp] theorem setStack_pc (as : List Addr) (s : State) : (setStack as s).pc = s.pc := rfl
@[simp] theorem setStack_stack (as : List Addr) (s : State) : (setStack as s).stack = as := rfl
@[simp] theorem setStack_dt (as : List Addr) (s : State) : (setStack as s).dt = s.dt := rfl
@[simp] theorem setStack_st (as : List Addr) (s : State) : (setStack as s).st = s.st := rfl
@[simp] theorem setStack_sounding (as : List Addr) (s : State) : (setStack as s).sounding = s.sounding := rfl
@[simp] theorem setStack_mem (as : List Addr) (s : State) : (setStack as s).mem = s.mem := rfl
@[simp] theorem setStack_display (as : List Addr) (s : State) : (setStack as s).display = s.display := rfl
@[simp] theorem setStack_dirty (as : List Addr) (s : State) : (setStack as s).dirty = s.dirty := rfl
@[simp] theorem setStack_keys (as : List Addr) (s : State) : (setStack as s).keys = s.keys := rfl
@[simp] theorem setStack_draws (as : List Addr) (s : State) : (setStack as s).draws = s.draws := rfl
@[simp] theorem reg_setStack (as : List Addr) (s : State) (q : Reg) : reg (setStack as s) q = reg s q := rfl
@[simp] theorem readByte_setStack (as : List Addr) (s : State) (ad : Nat) : readByte (setStack as s) ad = readByte s ad := rfl
@[simp] theorem pixel_setStack (as : List Addr) (s : State) (cx : Col) (cy : Row) : pixel (setStack as s) cx cy = pixel s cx cy := rfl
@[simp] theorem keyPressed_setStack (as : List Addr) (s : State) (k : Byte) : keyPressed (setStack as s) k = keyPressed s k := rfl
@[simp] theorem indexBase_setStack (as : List Addr) (s : State) : indexBase (setStack as s) = indexBase s := rfl

/-! ### `writeByte` -/

@[simp] theorem writeByte_v (a : Nat) (b : Byte) (s : State) : (writeByte a b s).v = s.v := rfl
@[simp] theorem writeByte_i (a : Nat) (b : Byte) (s : State) : (writeByte a b s).i = s.i := rfl
@[simp] theorem writeByte_pc (a : Nat) (b : Byte) (s : State) : (writeByte a b s).pc = s.pc := rfl
@[simp] theorem writeByte_stack (a : Nat) (b : Byte) (s : State) : (writeByte a b s).stack = s.stack := rfl
@[simp] theorem writeByte_dt (a : Nat) (b : Byte) (s : State) : (writeByte a b s).dt = s.dt := rfl
@[simp] theorem writeByte_st (a : Nat) (b : Byte) (s : State) : (writeByte a b s).st = s.st := rfl
@[simp] theorem writeByte_sounding (a : Nat) (b : Byte) (s : State) : (writeByte a b s).sounding = s.sounding := rfl
@[simp] theorem writeByte_mem (a : Nat) (b : Byte) (s : State) : (writeByte a b s).mem = Memory.write s.mem a b := rfl
@[simp] theorem writeByte_display (a : Nat) (b : Byte) (s : State) : (writeByte a b s).display = s.display := rfl
@[simp] theorem writeByte_dirty (a : Nat) (b : Byte) (s : State) : (writeByte a b s).dirty = s.dirty := rfl
@[simp] theorem writeByte_keys (a : Nat) (b : Byte) (s : State) : (writeByte a b s).keys = s.keys := rfl
@[simp] theorem writeByte_draws (a : Nat) (b : Byte) (s : State) : (writeByte a b s).draws = s.draws := rfl
@[simp] theorem reg_writeByte (a : Nat) (b : Byte) (s : State) (q : Reg) : reg (writeByte a b s) q = reg s q := rfl
@[simp] theorem pixel_writeByte (a : Nat) (b : Byte) (s : State) (cx : Col) (cy : Row) : pixel (writeByte a b s) cx cy = pixel s cx cy := rfl
@[simp] theorem keyPressed_writeByte (a : Nat) (b : Byte) (s : State) (k : Byte) : keyPressed (writeByte a b s) k = keyPressed s k := rfl
@[simp] theorem indexBase_writeByte (a : Nat) (b : Byte) (s : State) : indexBase (writeByte a b s) = indexBase s := rfl

/-! ### `flipPixel` -/

@[simp] theorem flipPixel_v (px : Col) (py : Row) (s : State) : (flipPixel px py s).v = s.v := rfl
@[simp] theorem flipPixel_i (px : Col) (py : Row) (s : State) : (flipPixel px py s).i = s.i := rfl
@[simp] theorem flipPixel_pc (px : Col) (py : Row) (s : State) : (flipPixel px py s).pc = s.pc := rfl
@[simp] theorem flipPixel_stack (px : Col) (py : Row) (s : State) : (flipPixel px py s).stack = s.stack := rfl
@[simp] theorem flipPixel_dt (px : Col) (py : Row) (s : State) : (flipPixel px py s).dt = s.dt := rfl
@[simp] theorem flipPixel_st (px : Col) (py : Row) (s : State) : (flipPixel px py s).st = s.st := rfl
@[simp] theorem flipPixel_sounding (px : Col) (py : Row) (s : State) : (flipPixel px py s).sounding = s.sounding := rfl
@[simp] theorem flipPixel_mem (px : Col) (py : Row) (s : State) : (flipPixel px py s).mem = s.mem := rfl
@[simp] theorem flipPixel_display (px : Col) (py : Row) (s : State) : (flipPixel px py s).display = s.display.set px ((s.display[px]).set py (!pixel s px py)) := rfl
@[simp] theorem flipPixel_dirty (px : Col) (py : Row) (s : State) : (flipPixel px py s).dirty = true := rfl
@[simp] theorem flipPixel_keys (px : Col) (py : Row) (s : State) : (flipPixel px py s).keys = s.keys := rfl
@[simp] theorem flipPixel_draws (px : Col) (py : Row) (s : State) : (flipPixel px py s).draws = s.draws := rfl
@[simp] theorem reg_flipPixel (px : Col) (py : Row) (s : State) (q : Reg) : reg (flipPixel px py s) q = reg s q := rfl
@[simp] theorem readByte_flipPixel (px : Col) (py : Row) (s : State) (ad : Nat) : readByte (flipPixel px py s) ad = readByte s ad := rfl
@[simp] theorem keyPressed_flipPixel (px : Col) (py : Row) (s : State) (k : Byte) : keyPressed (flipPixel px py s) k = keyPressed s k := rfl
@[simp] theorem indexBase_flipPixel (px : Col) (py : Row) (s : State) : indexBase (flipPixel px py s) = indexBase s := rfl

/-! ### `clearDisplay` -/

@[simp] theorem clearDisplay_v (s : State) : (clearDisplay s).v = s.v := rfl
@[simp] theorem clearDisplay_i (s : State) : (clearDisplay s).i = s.i := rfl
@[simp] theorem clearDisplay_pc (s : State) : (clearDisplay s).pc = s.pc := rfl
@[simp] theorem clearDisplay_stack (s : State) : (clearDisplay s).stack = s.stack := rfl
@[simp] theorem clearDisplay_dt (s : State) : (clearDisplay s).dt = s.dt := rfl
@[simp] theorem clearDisplay_st (s : State) : (clearDisplay s).st = s.st := rfl
@[simp] theorem clearDisplay_sounding (s : State) : (clearDisplay s).sounding = s.sounding := rfl
@[simp] theorem clearDisplay_mem (s : State) : (clearDisplay s).mem = s.mem := rfl
@[simp] theorem clearDisplay_display (s : State) : (clearDisplay s).display = blankDisplay := rfl
@[simp] theorem clearDisplay_dirty (s : State) : (clearDisplay s).dirty = true := rfl
@[simp] theorem clearDisplay_keys (s : State) : (clearDisplay s).keys = s.keys := rfl
@[simp] theorem clearDisplay_draws (s : State) : (clearDisplay s).draws = s.draws := rfl
@[simp] theorem reg_clearDisplay (s : State) (q : Reg) : reg (clearDisplay s) q = reg s q := rfl
@[simp] theorem readByte_clearDisplay (s : State) (ad : Nat) : readByte (clearDisplay s) ad = readByte s ad := rfl
@[simp] theorem keyPressed_clearDisplay (s : State) (k : Byte) : keyPressed (clearDisplay s) k = keyPressed s k := rfl
@[simp] theorem indexBase_clearDisplay (s : State) : indexBase (clearDisplay s) = indexBase s := rfl

/-! ### `countDraw` -/

@[simp] theorem countDraw_v (s : State) : (countDraw s).v = s.v := rfl
@[simp] theorem countDraw_i (s : State) : (countDraw s).i = s.i := rfl
@[simp] theorem countDraw_pc (s : State) : (countDraw s).pc = s.pc := rfl
@[simp] theorem countDraw_stack (s : State) : (countDraw s).stack = s.stack := rfl
@[simp] theorem countDraw_dt (s : State) : (countDraw s).dt = s.dt := rfl
@[simp] theorem countDraw_st (s : State) : (countDraw s).st = s.st := rfl
@[simp] theorem countDraw_sounding (s : State) : (countDraw s).sounding = s.sounding := rfl
@[simp] theorem countDraw_mem (s : State) : (countDraw s).mem = s.mem := rfl
@[simp] theorem countDraw_display (s : State) : (countDraw s).display = s.display := rfl
@[simp] theorem countDraw_dirty (s : State) : (countDraw s).dirty = s.dirty := rfl
@[simp] theorem countDraw_keys (s : State) : (countDraw s).keys = s.keys := rfl
@[simp] theorem countDraw_draws (s : State) : (countDraw s).draws = s.draws + 1 := rfl
@[simp] theorem reg_countDraw (s : State) (q : Reg) : reg (countDraw s) q = reg s q := rfl
@[simp] theorem readByte_countDraw (s : State) (ad : Nat) : readByte (countDraw s) ad = readByte s ad := rfl
@[simp] theorem pixel_countDraw (s : State) (cx : Col) (cy : Row) : pixel (countDraw s) cx cy = pixel s cx cy := rfl
@[simp] theorem keyPressed_countDraw (s : State) (k : Byte) : keyPressed (countDraw s) k = keyPressed s k := rfl
@[simp] theorem indexBase_countDraw (s : State) : indexBase (countDraw s) = indexBase s := rfl

end Sys2Proof.Machine
end

