-- ==== Sys2Proof/Laws/Commands.lean ====
section
/-! SUPPORT. One lemma per field per command that the outside issues, each true by unfolding. -/

namespace Sys2Proof.Machine

/-! ### `tickTimers` -/

@[simp] theorem tickTimers_v (s : State) : (tickTimers s).v = s.v := rfl
@[simp] theorem tickTimers_i (s : State) : (tickTimers s).i = s.i := rfl
@[simp] theorem tickTimers_pc (s : State) : (tickTimers s).pc = s.pc := rfl
@[simp] theorem tickTimers_stack (s : State) : (tickTimers s).stack = s.stack := rfl
@[simp] theorem tickTimers_dt (s : State) : (tickTimers s).dt = tickDown s.dt := rfl
@[simp] theorem tickTimers_st (s : State) : (tickTimers s).st = tickDown s.st := rfl
@[simp] theorem tickTimers_sounding (s : State) : (tickTimers s).sounding = decide (s.st ≠ 0) := rfl
@[simp] theorem tickTimers_mem (s : State) : (tickTimers s).mem = s.mem := rfl
@[simp] theorem tickTimers_display (s : State) : (tickTimers s).display = s.display := rfl
@[simp] theorem tickTimers_dirty (s : State) : (tickTimers s).dirty = s.dirty := rfl
@[simp] theorem tickTimers_keys (s : State) : (tickTimers s).keys = s.keys := rfl
@[simp] theorem tickTimers_draws (s : State) : (tickTimers s).draws = s.draws := rfl
@[simp] theorem reg_tickTimers (s : State) (q : Reg) : reg (tickTimers s) q = reg s q := rfl
@[simp] theorem readByte_tickTimers (s : State) (ad : Nat) : readByte (tickTimers s) ad = readByte s ad := rfl
@[simp] theorem pixel_tickTimers (s : State) (cx : Col) (cy : Row) : pixel (tickTimers s) cx cy = pixel s cx cy := rfl
@[simp] theorem keyPressed_tickTimers (s : State) (k : Byte) : keyPressed (tickTimers s) k = keyPressed s k := rfl
@[simp] theorem indexBase_tickTimers (s : State) : indexBase (tickTimers s) = indexBase s := rfl

/-! ### `pressKey` -/

@[simp] theorem pressKey_v (k : Key) (s : State) : (pressKey k s).v = s.v := rfl
@[simp] theorem pressKey_i (k : Key) (s : State) : (pressKey k s).i = s.i := rfl
@[simp] theorem pressKey_pc (k : Key) (s : State) : (pressKey k s).pc = s.pc := rfl
@[simp] theorem pressKey_stack (k : Key) (s : State) : (pressKey k s).stack = s.stack := rfl
@[simp] theorem pressKey_dt (k : Key) (s : State) : (pressKey k s).dt = s.dt := rfl
@[simp] theorem pressKey_st (k : Key) (s : State) : (pressKey k s).st = s.st := rfl
@[simp] theorem pressKey_sounding (k : Key) (s : State) : (pressKey k s).sounding = s.sounding := rfl
@[simp] theorem pressKey_mem (k : Key) (s : State) : (pressKey k s).mem = s.mem := rfl
@[simp] theorem pressKey_display (k : Key) (s : State) : (pressKey k s).display = s.display := rfl
@[simp] theorem pressKey_dirty (k : Key) (s : State) : (pressKey k s).dirty = s.dirty := rfl
@[simp] theorem pressKey_keys (k : Key) (s : State) : (pressKey k s).keys = insertKey k s.keys := rfl
@[simp] theorem pressKey_draws (k : Key) (s : State) : (pressKey k s).draws = s.draws := rfl
@[simp] theorem reg_pressKey (k : Key) (s : State) (q : Reg) : reg (pressKey k s) q = reg s q := rfl
@[simp] theorem readByte_pressKey (k : Key) (s : State) (ad : Nat) : readByte (pressKey k s) ad = readByte s ad := rfl
@[simp] theorem pixel_pressKey (k : Key) (s : State) (cx : Col) (cy : Row) : pixel (pressKey k s) cx cy = pixel s cx cy := rfl
@[simp] theorem indexBase_pressKey (k : Key) (s : State) : indexBase (pressKey k s) = indexBase s := rfl

/-! ### `releaseKey` -/

@[simp] theorem releaseKey_v (k : Key) (s : State) : (releaseKey k s).v = s.v := rfl
@[simp] theorem releaseKey_i (k : Key) (s : State) : (releaseKey k s).i = s.i := rfl
@[simp] theorem releaseKey_pc (k : Key) (s : State) : (releaseKey k s).pc = s.pc := rfl
@[simp] theorem releaseKey_stack (k : Key) (s : State) : (releaseKey k s).stack = s.stack := rfl
@[simp] theorem releaseKey_dt (k : Key) (s : State) : (releaseKey k s).dt = s.dt := rfl
@[simp] theorem releaseKey_st (k : Key) (s : State) : (releaseKey k s).st = s.st := rfl
@[simp] theorem releaseKey_sounding (k : Key) (s : State) : (releaseKey k s).sounding = s.sounding := rfl
@[simp] theorem releaseKey_mem (k : Key) (s : State) : (releaseKey k s).mem = s.mem := rfl
@[simp] theorem releaseKey_display (k : Key) (s : State) : (releaseKey k s).display = s.display := rfl
@[simp] theorem releaseKey_dirty (k : Key) (s : State) : (releaseKey k s).dirty = s.dirty := rfl
@[simp] theorem releaseKey_keys (k : Key) (s : State) : (releaseKey k s).keys = removeKey k s.keys := rfl
@[simp] theorem releaseKey_draws (k : Key) (s : State) : (releaseKey k s).draws = s.draws := rfl
@[simp] theorem reg_releaseKey (k : Key) (s : State) (q : Reg) : reg (releaseKey k s) q = reg s q := rfl
@[simp] theorem readByte_releaseKey (k : Key) (s : State) (ad : Nat) : readByte (releaseKey k s) ad = readByte s ad := rfl
@[simp] theorem pixel_releaseKey (k : Key) (s : State) (cx : Col) (cy : Row) : pixel (releaseKey k s) cx cy = pixel s cx cy := rfl
@[simp] theorem indexBase_releaseKey (k : Key) (s : State) : indexBase (releaseKey k s) = indexBase s := rfl

/-! ### `ackDisplay` -/

@[simp] theorem ackDisplay_v (s : State) : (ackDisplay s).v = s.v := rfl
@[simp] theorem ackDisplay_i (s : State) : (ackDisplay s).i = s.i := rfl
@[simp] theorem ackDisplay_pc (s : State) : (ackDisplay s).pc = s.pc := rfl
@[simp] theorem ackDisplay_stack (s : State) : (ackDisplay s).stack = s.stack := rfl
@[simp] theorem ackDisplay_dt (s : State) : (ackDisplay s).dt = s.dt := rfl
@[simp] theorem ackDisplay_st (s : State) : (ackDisplay s).st = s.st := rfl
@[simp] theorem ackDisplay_sounding (s : State) : (ackDisplay s).sounding = s.sounding := rfl
@[simp] theorem ackDisplay_mem (s : State) : (ackDisplay s).mem = s.mem := rfl
@[simp] theorem ackDisplay_display (s : State) : (ackDisplay s).display = s.display := rfl
@[simp] theorem ackDisplay_dirty (s : State) : (ackDisplay s).dirty = false := rfl
@[simp] theorem ackDisplay_keys (s : State) : (ackDisplay s).keys = s.keys := rfl
@[simp] theorem ackDisplay_draws (s : State) : (ackDisplay s).draws = s.draws := rfl
@[simp] theorem reg_ackDisplay (s : State) (q : Reg) : reg (ackDisplay s) q = reg s q := rfl
@[simp] theorem readByte_ackDisplay (s : State) (ad : Nat) : readByte (ackDisplay s) ad = readByte s ad := rfl
@[simp] theorem pixel_ackDisplay (s : State) (cx : Col) (cy : Row) : pixel (ackDisplay s) cx cy = pixel s cx cy := rfl
@[simp] theorem keyPressed_ackDisplay (s : State) (k : Byte) : keyPressed (ackDisplay s) k = keyPressed s k := rfl
@[simp] theorem indexBase_ackDisplay (s : State) : indexBase (ackDisplay s) = indexBase s := rfl

/-! ### `resetTo` and `resetAll` -/

@[simp] theorem resetTo_v (r s : State) : (resetTo r s).v = r.v := rfl
@[simp] theorem resetTo_i (r s : State) : (resetTo r s).i = r.i := rfl
@[simp] theorem resetTo_pc (r s : State) : (resetTo r s).pc = r.pc := rfl
@[simp] theorem resetTo_stack (r s : State) : (resetTo r s).stack = r.stack := rfl
@[simp] theorem resetTo_dt (r s : State) : (resetTo r s).dt = r.dt := rfl
@[simp] theorem resetTo_st (r s : State) : (resetTo r s).st = r.st := rfl
@[simp] theorem resetTo_sounding (r s : State) : (resetTo r s).sounding = r.sounding := rfl
@[simp] theorem resetTo_mem (r s : State) : (resetTo r s).mem = r.mem := rfl
@[simp] theorem resetTo_display (r s : State) : (resetTo r s).display = r.display := rfl
@[simp] theorem resetTo_dirty (r s : State) : (resetTo r s).dirty = r.dirty := rfl
@[simp] theorem resetTo_keys (r s : State) : (resetTo r s).keys = s.keys := rfl
@[simp] theorem resetTo_draws (r s : State) : (resetTo r s).draws = s.draws := rfl
@[simp] theorem reg_resetTo (r s : State) (q : Reg) : reg (resetTo r s) q = reg r q := rfl
@[simp] theorem readByte_resetTo (r s : State) (ad : Nat) : readByte (resetTo r s) ad = readByte r ad := rfl
@[simp] theorem pixel_resetTo (r s : State) (cx : Col) (cy : Row) : pixel (resetTo r s) cx cy = pixel r cx cy := rfl
@[simp] theorem keyPressed_resetTo (r s : State) (k : Byte) : keyPressed (resetTo r s) k = keyPressed s k := rfl
/-! ### `resetAll` -/

@[simp] theorem resetAll_v (s : State) : (resetAll s).v = State.reset.v := rfl
@[simp] theorem resetAll_i (s : State) : (resetAll s).i = State.reset.i := rfl
@[simp] theorem resetAll_pc (s : State) : (resetAll s).pc = State.reset.pc := rfl
@[simp] theorem resetAll_stack (s : State) : (resetAll s).stack = State.reset.stack := rfl
@[simp] theorem resetAll_dt (s : State) : (resetAll s).dt = State.reset.dt := rfl
@[simp] theorem resetAll_st (s : State) : (resetAll s).st = State.reset.st := rfl
@[simp] theorem resetAll_sounding (s : State) : (resetAll s).sounding = State.reset.sounding := rfl
@[simp] theorem resetAll_mem (s : State) : (resetAll s).mem = [] := rfl
@[simp] theorem resetAll_display (s : State) : (resetAll s).display = State.reset.display := rfl
@[simp] theorem resetAll_dirty (s : State) : (resetAll s).dirty = State.reset.dirty := rfl
@[simp] theorem resetAll_keys (s : State) : (resetAll s).keys = s.keys := rfl
@[simp] theorem resetAll_draws (s : State) : (resetAll s).draws = s.draws := rfl
@[simp] theorem keyPressed_resetAll (s : State) (k : Byte) : keyPressed (resetAll s) k = keyPressed s k := rfl
@[simp] theorem reg_resetAll (s : State) (q : Reg) : reg (resetAll s) q = reg State.reset q := rfl
@[simp] theorem readByte_resetAll (s : State) (ad : Nat) : readByte (resetAll s) ad = readByte State.reset ad := rfl
@[simp] theorem pixel_resetAll (s : State) (cx : Col) (cy : Row) : pixel (resetAll s) cx cy = pixel State.reset cx cy := rfl

end Sys2Proof.Machine
end

