-- ==== Sys2Proof/Laws/Decode.lean ====
section
/-! SUPPORT. The fields of a word put together from fields, and an opcode put together from its bytes. Each field and each
format is first said as arithmetic on numbers; the rest follows from that. -/

namespace Sys2Proof

/-! ### Fields and formats as numbers -/

theorem fieldOp_toNat (w : Opcode) : (fieldOp w).toNat = w.toNat / 4096 := by
  have := w.isLt
  simp [fieldOp, BitVec.extractLsb'_toNat, Nat.shiftRight_eq_div_pow]; omega

theorem fieldX_toNat (w : Opcode) : (fieldX w).toNat = w.toNat / 256 % 16 := by
  simp [fieldX, BitVec.extractLsb'_toNat, Nat.shiftRight_eq_div_pow]

theorem fieldY_toNat (w : Opcode) : (fieldY w).toNat = w.toNat / 16 % 16 := by
  simp [fieldY, BitVec.extractLsb'_toNat, Nat.shiftRight_eq_div_pow]

theorem fieldN_toNat (w : Opcode) : (fieldN w).toNat = w.toNat % 16 := by
  simp [fieldN, BitVec.extractLsb'_toNat]

theorem fieldNN_toNat (w : Opcode) : (fieldNN w).toNat = w.toNat % 256 := by
  simp [fieldNN, BitVec.extractLsb'_toNat]

theorem fieldNNN_toNat (w : Opcode) : (fieldNNN w).toNat = w.toNat % 4096 := by
  simp [fieldNNN, BitVec.extractLsb'_toNat]

theorem append_toNat {m n : Nat} (a : BitVec m) (b : BitVec n) : (a ++ b).toNat = a.toNat * 2 ^ n + b.toNat := by
  rw [BitVec.toNat_append, ← Nat.shiftLeft_add_eq_or_of_lt b.isLt, Nat.shiftLeft_eq]

theorem wordNNN_toNat (op : BitVec 4) (nnn : BitVec 12) : (wordNNN op nnn).toNat = op.toNat * 4096 + nnn.toNat :=
  append_toNat op nnn

theorem wordXNN_toNat (op : BitVec 4) (x : Reg) (nn : Byte) :
    (wordXNN op x nn).toNat = (op.toNat * 16 + x.toNat) * 256 + nn.toNat :=
  (append_toNat (op ++ x) nn).trans (by rw [append_toNat]; rfl)

theorem wordXYN_toNat (op : BitVec 4) (x y : Reg) (n : BitVec 4) :
    (wordXYN op x y n).toNat = ((op.toNat * 16 + x.toNat) * 16 + y.toNat) * 16 + n.toNat :=
  (append_toNat (op ++ x ++ y) n).trans (by rw [append_toNat, append_toNat]; rfl)

/-- Big-endian: the byte at the lower address counts 256 (spec/20_memory.md R52). -/
theorem joinBytes_toNat (hi lo : Byte) : (joinBytes hi lo).toNat = hi.toNat * 256 + lo.toNat := append_toNat hi lo

/-! ### The fields of a word made of fields -/

@[simp] theorem fieldOp_wordNNN (op : BitVec 4) (nnn : BitVec 12) : fieldOp (wordNNN op nnn) = op := by
  apply BitVec.eq_of_toNat_eq; have := nnn.isLt; rw [fieldOp_toNat, wordNNN_toNat]; omega

@[simp] theorem fieldNNN_wordNNN (op : BitVec 4) (nnn : BitVec 12) : fieldNNN (wordNNN op nnn) = nnn := by
  apply BitVec.eq_of_toNat_eq; have := nnn.isLt; rw [fieldNNN_toNat, wordNNN_toNat]; omega

@[simp] theorem fieldOp_wordXNN (op : BitVec 4) (x : Reg) (nn : Byte) : fieldOp (wordXNN op x nn) = op := by
  apply BitVec.eq_of_toNat_eq; have := nn.isLt; have := x.isLt; rw [fieldOp_toNat, wordXNN_toNat]; omega

@[simp] theorem fieldX_wordXNN (op : BitVec 4) (x : Reg) (nn : Byte) : fieldX (wordXNN op x nn) = x := by
  apply BitVec.eq_of_toNat_eq; have := nn.isLt; have := x.isLt; rw [fieldX_toNat, wordXNN_toNat]; omega

@[simp] theorem fieldNN_wordXNN (op : BitVec 4) (x : Reg) (nn : Byte) : fieldNN (wordXNN op x nn) = nn := by
  apply BitVec.eq_of_toNat_eq; have := nn.isLt; rw [fieldNN_toNat, wordXNN_toNat]; omega

theorem fieldY_wordXNN (op : BitVec 4) (x : Reg) (nn : Byte) : fieldY (wordXNN op x nn) = nn.extractLsb' 4 4 := by
  apply BitVec.eq_of_toNat_eq; rw [fieldY_toNat, wordXNN_toNat]
  simp [BitVec.extractLsb'_toNat, Nat.shiftRight_eq_div_pow]; omega

theorem fieldN_wordXNN (op : BitVec 4) (x : Reg) (nn : Byte) : fieldN (wordXNN op x nn) = nn.extractLsb' 0 4 := by
  apply BitVec.eq_of_toNat_eq; rw [fieldN_toNat, wordXNN_toNat]
  simp [BitVec.extractLsb'_toNat]; omega

@[simp] theorem fieldOp_wordXYN (op : BitVec 4) (x y : Reg) (n : BitVec 4) : fieldOp (wordXYN op x y n) = op := by
  apply BitVec.eq_of_toNat_eq; have := x.isLt; have := y.isLt; have := n.isLt
  rw [fieldOp_toNat, wordXYN_toNat]; omega

@[simp] theorem fieldX_wordXYN (op : BitVec 4) (x y : Reg) (n : BitVec 4) : fieldX (wordXYN op x y n) = x := by
  apply BitVec.eq_of_toNat_eq; have := x.isLt; have := y.isLt; have := n.isLt
  rw [fieldX_toNat, wordXYN_toNat]; omega

@[simp] theorem fieldY_wordXYN (op : BitVec 4) (x y : Reg) (n : BitVec 4) : fieldY (wordXYN op x y n) = y := by
  apply BitVec.eq_of_toNat_eq; have := y.isLt; have := n.isLt
  rw [fieldY_toNat, wordXYN_toNat]; omega

@[simp] theorem fieldN_wordXYN (op : BitVec 4) (x y : Reg) (n : BitVec 4) : fieldN (wordXYN op x y n) = n := by
  apply BitVec.eq_of_toNat_eq; have := n.isLt
  rw [fieldN_toNat, wordXYN_toNat]; omega

/-! ### A word is its fields, and its bytes -/

/-- A word in format NNN is its `op` and its `nnn`. -/
theorem wordNNN_fields (w : Opcode) : wordNNN (fieldOp w) (fieldNNN w) = w := by
  apply BitVec.eq_of_toNat_eq; rw [wordNNN_toNat, fieldOp_toNat, fieldNNN_toNat]; omega

/-- A word in format XNN is its `op`, `x` and `nn`. -/
theorem wordXNN_fields (w : Opcode) : wordXNN (fieldOp w) (fieldX w) (fieldNN w) = w := by
  apply BitVec.eq_of_toNat_eq; rw [wordXNN_toNat, fieldOp_toNat, fieldX_toNat, fieldNN_toNat]; omega

/-- A word in format XYN is its `op`, `x`, `y` and `n`. -/
theorem wordXYN_fields (w : Opcode) : wordXYN (fieldOp w) (fieldX w) (fieldY w) (fieldN w) = w := by
  apply BitVec.eq_of_toNat_eq; rw [wordXYN_toNat, fieldOp_toNat, fieldX_toNat, fieldY_toNat, fieldN_toNat]; omega

/-- The bits of a word in format XYN. -/
theorem getLsbD_wordXYN (op : BitVec 4) (x y : Reg) (n : BitVec 4) (k : Nat) :
    (wordXYN op x y n).getLsbD k =
      if k < 4 then n.getLsbD k else if k < 8 then y.getLsbD (k - 4)
      else if k < 12 then x.getLsbD (k - 8) else op.getLsbD (k - 12) := by
  show (op ++ x ++ y ++ n : BitVec (4 + 4 + 4 + 4)).getLsbD k = _
  simp only [BitVec.getLsbD_append]
  split
  · rfl
  · by_cases h1 : k < 8
    · have : k - 4 < 4 := by omega
      simp [h1, this]
    · have h2 : ¬ (k - 4 < 4) := by omega
      by_cases h3 : k < 12
      · have h4 : k - 4 - 4 < 4 := by omega
        have h5 : k - 4 - 4 = k - 8 := by omega
        rw [if_neg h2, if_pos h4, if_neg h1, if_pos h3, h5]
      · have h4 : ¬ (k - 4 - 4 < 4) := by omega
        have h5 : k - 4 - 4 - 4 = k - 12 := by omega
        rw [if_neg h2, if_neg h4, if_neg h1, if_neg h3, h5]

/-- The mask F000 keeps `op`. -/
theorem and_maskOp (w : Opcode) : w &&& 0xF000 = wordXYN (fieldOp w) 0 0 0 := by
  apply BitVec.eq_of_getLsbD_eq
  intro k hk
  rw [getLsbD_wordXYN]
  simp only [BitVec.getLsbD_and, fieldOp, BitVec.getLsbD_extractLsb']
  interval_cases k <;> simp

/-- The mask F00F keeps `op` and `n`. -/
theorem and_maskOpN (w : Opcode) : w &&& 0xF00F = wordXYN (fieldOp w) 0 0 (fieldN w) := by
  apply BitVec.eq_of_getLsbD_eq
  intro k hk
  rw [getLsbD_wordXYN]
  simp only [BitVec.getLsbD_and, fieldOp, fieldN, BitVec.getLsbD_extractLsb']
  interval_cases k <;> simp

/-- The mask F0FF keeps `op` and the low byte. -/
theorem and_maskOpNN (w : Opcode) : w &&& 0xF0FF = wordXYN (fieldOp w) 0 (fieldY w) (fieldN w) := by
  apply BitVec.eq_of_getLsbD_eq
  intro k hk
  rw [getLsbD_wordXYN]
  simp only [BitVec.getLsbD_and, fieldOp, fieldY, fieldN, BitVec.getLsbD_extractLsb']
  interval_cases k <;> simp

/-! ### Selecting a row, by the fields -/

theorem selects_iff {r : OpcodeRow} {w : Opcode} : r.selects w = true ↔ w &&& r.mask = r.pattern := by
  rw [OpcodeRow.selects, beq_iff_eq]

/-- A row that fixes `op` alone. -/
theorem selects_op (p : BitVec 4) (w : Opcode) : (OpcodeRow.mk (wordXYN p 0 0 0) 0xF000).selects w = true ↔ fieldOp w = p := by
  rw [selects_iff, and_maskOp]
  exact ⟨fun h => by simpa using congrArg fieldOp h, fun h => by rw [h]⟩

/-- A row that fixes `op` and `n`. -/
theorem selects_opN (p q : BitVec 4) (w : Opcode) :
    (OpcodeRow.mk (wordXYN p 0 0 q) 0xF00F).selects w = true ↔ fieldOp w = p ∧ fieldN w = q := by
  rw [selects_iff, and_maskOpN]
  exact ⟨fun h => ⟨by simpa using congrArg fieldOp h, by simpa using congrArg fieldN h⟩, fun h => by rw [h.1, h.2]⟩

/-- A row that fixes `op` and the low byte. -/
theorem selects_opNN (p : BitVec 4) (q : Byte) (w : Opcode) :
    (OpcodeRow.mk (wordXNN p 0 q) 0xF0FF).selects w = true ↔ fieldOp w = p ∧ fieldNN w = q := by
  have e : w &&& 0xF0FF = wordXNN (fieldOp w) 0 (fieldNN w) := by
    rw [and_maskOpNN]
    apply BitVec.eq_of_toNat_eq
    rw [wordXYN_toNat, wordXNN_toNat, fieldNN_toNat, fieldY_toNat, fieldN_toNat]
    simp; omega
  rw [selects_iff, e]
  exact ⟨fun h => ⟨by simpa using congrArg fieldOp h, by simpa using congrArg fieldNN h⟩, fun h => by rw [h.1, h.2]⟩

/-- A row that fixes the whole opcode. -/
theorem selects_all (p w : Opcode) : (OpcodeRow.mk p 0xFFFF).selects w = true ↔ w = p := by
  rw [selects_iff, show w &&& 0xFFFF = w from BitVec.and_allOnes]

/-! ### Decoding by a map -/

/-- What is decoded is the operation of a row that the opcode selects, with the operands of the map's fields. -/
theorem decodeBy_some {m : OpcodeMap} {w : Opcode} {i : Instr} (h : decodeBy m w = some i) :
    ∃ r ∈ m.rows, r.2.selects w = true ∧ i = instrOf m w r.1 := by
  unfold decodeBy at h
  split at h
  · next r hr => cases h; exact ⟨r, List.mem_of_find?_eq_some hr, List.find?_some (p := fun r : Operation × OpcodeRow => r.2.selects w) hr, rfl⟩
  · cases h

/-- An opcode has no instruction exactly if it selects no row (spec/30_encoding.md R77). -/
theorem decodeBy_none {m : OpcodeMap} {w : Opcode} : decodeBy m w = none ↔ ∀ r ∈ m.rows, r.2.selects w = false := by
  unfold decodeBy
  split
  · next r hr =>
    simp only [reduceCtorEq, false_iff]
    intro h
    have := List.find?_some (p := fun r : Operation × OpcodeRow => r.2.selects w) hr
    rw [h r (List.mem_of_find?_eq_some hr)] at this
    cases this
  · next hn => simpa using hn

/-- Where no other row selects the opcode, a row that does decides it. -/
theorem decodeBy_of_selects {m : OpcodeMap} {w : Opcode} {r : Operation × OpcodeRow} (hr : r ∈ m.rows)
    (hs : r.2.selects w = true) (only : ∀ q ∈ m.rows, q.2.selects w = true → q = r) : decodeBy m w = some (instrOf m w r.1) := by
  cases h : decodeBy m w with
  | none => rw [decodeBy_none.mp h r hr] at hs; cases hs
  | some i =>
    obtain ⟨q, hq, hqs, rfl⟩ := decodeBy_some h
    rw [only q hq hqs]

/-! ### Bytes -/

/-- An opcode is its two bytes, high byte first. -/
theorem joinBytes_splitBytes (w : Opcode) : joinBytes (w.extractLsb' 8 8) (w.extractLsb' 0 8) = w := by
  apply BitVec.eq_of_toNat_eq
  have := w.isLt
  rw [joinBytes_toNat]
  simp [BitVec.extractLsb'_toNat, Nat.shiftRight_eq_div_pow]; omega

/-- The byte decoder reads what the word decoder reads from the first two bytes, and leaves the rest. -/
theorem decode_ok {bytes rest : List Byte} {i : Instr} :
    decode bytes = .ok (i, rest) ↔ ∃ hi lo, bytes = hi :: lo :: rest ∧ decodeWord (joinBytes hi lo) = some i := by
  constructor
  · intro h
    unfold decode at h
    split at h
    · next hi lo tail =>
      split at h
      · next j hj =>
        simp only [Except.ok.injEq, Prod.mk.injEq] at h
        obtain ⟨rfl, rfl⟩ := h
        exact ⟨hi, lo, rfl, hj⟩
      · cases h
    · cases h
  · rintro ⟨hi, lo, rfl, h⟩
    simp [decode, h]

end Sys2Proof
end

