-- ==== Sys2Proof/Laws/Display.lean ====
section
/-! SUPPORT. The display: one flip, a list of flips, and the cells of a sprite, said once. -/

namespace Sys2Proof.Machine

/-! ### Single cells -/

/-- A flip toggles its own cell and no other. -/
theorem pixel_flipPixel (px cx : Col) (py cy : Row) (s : State) :
    pixel (flipPixel px py s) cx cy = if cx = px ∧ cy = py then !pixel s cx cy else pixel s cx cy := by
  by_cases hx : cx = px
  · subst hx
    by_cases hy : cy = py
    · subst hy; simp [pixel]
    · have : (py : Nat) ≠ cy := fun e => hy (Fin.ext e.symm)
      simp [pixel, hy, Vector.getElem_set_ne, this]
  · have : (px : Nat) ≠ cx := fun e => hx (Fin.ext e.symm)
    simp [pixel, hx, Vector.getElem_set_ne, this]

@[simp] theorem pixel_clearDisplay (px : Col) (py : Row) (s : State) : pixel (clearDisplay s) px py = false := by
  simp [pixel, blankDisplay]

@[simp] theorem pixel_reset (px : Col) (py : Row) : pixel State.reset px py = false := by
  simp [pixel, blankDisplay]

theorem display_ext {s t : State} (h : ∀ px py, pixel t px py = pixel s px py) : t.display = s.display := by
  refine Vector.ext fun x hx => Vector.ext fun y hy => ?_
  exact h ⟨x, hx⟩ ⟨y, hy⟩

/-! ### A list of flips -/

/-- Flips change the display and `dirty` only. -/
theorem flipCells_eq (cells : List (Col × Row)) : ∀ (hit : Bool) (s : State),
    (flipCells cells hit s).1 =
      { s with display := (flipCells cells hit s).1.display, dirty := (flipCells cells hit s).1.dirty } := by
  induction cells with
  | nil => intro hit s; rfl
  | cons c rest ih =>
    intro hit s
    obtain ⟨px, py⟩ := c
    simp only [flipCells]
    rw [ih (hit || pixel s px py) (flipPixel px py s)]
    rfl

/-- `dirty` is set exactly if a cell was flipped. -/
theorem flipCells_dirty (cells : List (Col × Row)) : ∀ (hit : Bool) (s : State),
    (flipCells cells hit s).1.dirty = (s.dirty || !cells.isEmpty) := by
  induction cells with
  | nil => intro hit s; simp [flipCells]
  | cons c rest ih => intro hit s; simp [flipCells, ih]

/-- Flipping distinct cells toggles exactly those. -/
theorem flipCells_pixel (cells : List (Col × Row)) : ∀ (hit : Bool) (s : State), cells.Nodup → ∀ px py,
    pixel (flipCells cells hit s).1 px py = (pixel s px py ^^ decide ((px, py) ∈ cells)) := by
  induction cells with
  | nil => intro hit s _ px py; simp [flipCells]
  | cons c rest ih =>
    intro hit s hn px py
    obtain ⟨qx, qy⟩ := c
    rw [List.nodup_cons] at hn
    simp only [flipCells, ih _ _ hn.2, pixel_flipPixel, List.mem_cons, Prod.mk.injEq]
    by_cases h : px = qx ∧ py = qy
    · obtain ⟨rfl, rfl⟩ := h
      simp [hn.1]
    · simp [h]

/-- Flipping distinct cells reports whether one of them was lit before. -/
theorem flipCells_hit (cells : List (Col × Row)) : ∀ (hit : Bool) (s : State), cells.Nodup →
    (flipCells cells hit s).2 = (hit || cells.any fun c => pixel s c.1 c.2) := by
  induction cells with
  | nil => intro hit s _; simp [flipCells]
  | cons c rest ih =>
    intro hit s hn
    obtain ⟨qx, qy⟩ := c
    rw [List.nodup_cons] at hn
    simp only [flipCells, ih _ _ hn.2, List.any_cons, Bool.or_assoc]
    congr 2
    rw [Bool.eq_iff_iff]
    simp only [List.any_eq_true]
    have same : ∀ c ∈ rest, pixel (flipPixel qx qy s) c.1 c.2 = pixel s c.1 c.2 := by
      rintro ⟨cx, cy⟩ hc
      have : ¬ (cx = qx ∧ cy = qy) := by rintro ⟨rfl, rfl⟩; exact hn.1 hc
      simp [pixel_flipPixel, this]
    exact ⟨fun ⟨c, hc, h⟩ => ⟨c, hc, same c hc ▸ h⟩, fun ⟨c, hc, h⟩ => ⟨c, hc, (same c hc).symm ▸ h⟩⟩

/-! ### The cells of a sprite -/

@[simp] theorem edgeCol_val (e : DrawEdge) (x : Nat) : (edgeCol e x).val = x % 64 := by cases e; rfl

@[simp] theorem edgeRow_val (e : DrawEdge) (y : Nat) : (edgeRow e y).val = y % 32 := by cases e; rfl

theorem mem_rowCells {e : DrawEdge} {vx vy row : Nat} {b : Byte} {px : Col} {py : Row} :
    (px, py) ∈ rowCells e vx vy row b ↔
      ∃ col < 8, spriteBit b col = true ∧ px.val = (vx + col) % 64 ∧ py.val = (vy + row) % 32 := by
  simp only [rowCells, List.mem_map, List.mem_filter, List.mem_range, Prod.mk.injEq, Fin.ext_iff, edgeCol_val, edgeRow_val]
  constructor
  · rintro ⟨col, ⟨hc, hb⟩, hx, hy⟩; exact ⟨col, hc, hb, hx.symm, hy.symm⟩
  · rintro ⟨col, hc, hb, hx, hy⟩; exact ⟨col, ⟨hc, hb⟩, hx.symm, hy.symm⟩

/-- A sprite toggles the cell of each set bit (spec/44_display.md R151, R152). -/
theorem mem_spriteCells {e : DrawEdge} {vx vy : Nat} {px : Col} {py : Row} (bytes : List Byte) : ∀ row : Nat,
    (px, py) ∈ spriteCells e vx vy row bytes ↔
      ∃ k, ∃ h : k < bytes.length, ∃ col < 8, spriteBit bytes[k] col = true ∧
        px.val = (vx + col) % 64 ∧ py.val = (vy + (row + k)) % 32 := by
  induction bytes with
  | nil => intro row; simp [spriteCells]
  | cons b rest ih =>
    intro row
    rw [spriteCells, List.mem_append, mem_rowCells, ih]
    constructor
    · rintro (⟨col, hc, hb, hx, hy⟩ | ⟨k, h, col, hc, hb, hx, hy⟩)
      · exact ⟨0, by simp, col, hc, hb, hx, hy⟩
      · exact ⟨k + 1, by simpa using h, col, hc, hb, hx, by rw [hy]; congr 2; omega⟩
    · rintro ⟨k, h, col, hc, hb, hx, hy⟩
      cases k with
      | zero => exact .inl ⟨col, hc, hb, hx, hy⟩
      | succ k => exact .inr ⟨k, by simpa using h, col, hc, hb, hx, by rw [hy]; congr 2; omega⟩

theorem rowCells_nodup (e : DrawEdge) (vx vy row : Nat) (b : Byte) : (rowCells e vx vy row b).Nodup := by
  refine List.Nodup.map_on ?_ (List.nodup_range.filter _)
  intro c hc d hd h
  simp only [List.mem_filter, List.mem_range] at hc hd
  have := congrArg (fun p : Col × Row => p.1.val) h
  simp only [edgeCol_val] at this
  omega

/-- No cell is touched twice by one sprite of at most 32 rows (spec/44_display.md R151, corner case b). -/
theorem spriteCells_nodup {e : DrawEdge} {vx vy : Nat} (bytes : List Byte) : ∀ row : Nat, bytes.length ≤ 32 →
    (spriteCells e vx vy row bytes).Nodup := by
  induction bytes with
  | nil => intro row _; exact List.nodup_nil
  | cons b rest ih =>
    intro row hl
    simp only [List.length_cons] at hl
    rw [spriteCells, List.nodup_append]
    refine ⟨rowCells_nodup e vx vy row b, ih (row + 1) (by omega), ?_⟩
    rintro ⟨px, py⟩ h1 ⟨qx, qy⟩ h2 heq
    obtain ⟨-, rfl⟩ := Prod.mk.inj heq
    obtain ⟨_, _, _, _, hy⟩ := mem_rowCells.mp h1
    obtain ⟨k, hk, _, _, _, _, hy'⟩ := (mem_spriteCells rest (row + 1)).mp h2
    omega

end Sys2Proof.Machine
end

