-- ==== Sys2Proof/Laws/Operands.lean ====
section
/-! SUPPORT. Each operand form and each flag as a number. -/

namespace Sys2Proof.Machine

@[simp] theorem zextAddr_toNat (nnn : BitVec 12) : (zextAddr nnn).toNat = nnn.toNat := by
  have := nnn.isLt
  simp [zextAddr]; omega

@[simp] theorem zextByte_toNat (b : Byte) : (zextByte b).toNat = b.toNat := by
  have := b.isLt
  simp [zextByte]; omega

@[simp] theorem keyByte_toNat (k : Key) : (keyByte k).toNat = k.toNat := by
  have := k.isLt
  simp [keyByte]; omega

/-- The target of `JP V0, addr` is the true sum: it fits 16 bits (spec/40_control_transfer.md R103). -/
theorem offsetTarget_toNat (nnn : BitVec 12) (s : State) :
    (offsetTarget nnn s).toNat = nnn.toNat + (reg s 0#4).toNat := by
  have := nnn.isLt
  have := (reg s 0#4).isLt
  simp [offsetTarget, BitVec.toNat_add]; omega

/-- The glyph address is the true product: at most 1275 (spec/43_index_memory.md R142). -/
theorem glyphAddress_toNat (b : Byte) : (glyphAddress b).toNat = b.toNat * 5 := by
  have := b.isLt
  simp [glyphAddress, BitVec.toNat_mul]; omega

theorem hundreds_toNat (b : Byte) : (hundreds b).toNat = b.toNat / 100 := by
  have := b.isLt
  simp [hundreds]; omega

theorem tens_toNat (b : Byte) : (tens b).toNat = b.toNat / 10 % 10 := by
  simp [tens]; omega

theorem units_toNat (b : Byte) : (units b).toNat = b.toNat % 10 := by
  simp [units]; omega

/-! ### Flags -/

@[simp] theorem flagByte_toNat (c : Bool) : (flagByte c).toNat = if c then 1 else 0 := by cases c <;> rfl

theorem flagByte_eq_one (c : Bool) : flagByte c = 1 ↔ c = true := by cases c <;> decide

theorem carryFlag_toNat (a b : Byte) : (carryFlag a b).toNat = if 255 < a.toNat + b.toNat then 1 else 0 := by
  simp [carryFlag]

theorem noBorrowFlag_toNat (a b : Byte) : (noBorrowFlag a b).toNat = if b.toNat ≤ a.toNat then 1 else 0 := by
  simp [noBorrowFlag]

theorem shrFlag_toNat (a : Byte) : (shrFlag a).toNat = a.toNat % 2 := by
  simp [shrFlag]

@[simp] theorem shlFlagByte_fullByte (a : Byte) : shlFlagByte .fullByte a = a := BitVec.and_allOnes

theorem shlFlagByte_msb_toNat (a : Byte) : (shlFlagByte .msb a).toNat = a.toNat / 128 := by
  revert a; decide +kernel

end Sys2Proof.Machine
end

