-- ==== Sys2Proof/Laws/Memory.lean ====
section
/-! SUPPORT. Memory: a read after a write, the canonical form, and what the checked accesses do, said once. -/

namespace Sys2Proof.Machine

/-! ### One byte -/

theorem read_erase_other {m : Memory} {a c : Nat} (h : c ≠ a) : Memory.read (Memory.erase m a) c = Memory.read m c := by
  induction m with
  | nil => rfl
  | cons d rest ih =>
    obtain ⟨b, w⟩ := d
    by_cases hb : b = a
    · have : c ≠ b := by omega
      simpa [Memory.erase, hb, Memory.read, this, h] using ih
    · have e : Memory.erase ((b, w) :: rest) a = (b, w) :: Memory.erase rest a := by simp [Memory.erase, hb]
      simp only [e, Memory.read, ih]

theorem read_erase_same (m : Memory) (a : Nat) : Memory.read (Memory.erase m a) a = resetByte a := by
  induction m with
  | nil => rfl
  | cons d rest ih =>
    obtain ⟨b, w⟩ := d
    by_cases hb : b = a
    · simpa [Memory.erase, hb] using ih
    · have e : Memory.erase ((b, w) :: rest) a = (b, w) :: Memory.erase rest a := by simp [Memory.erase, hb]
      have : a ≠ b := fun h => hb h.symm
      simp [e, Memory.read, this, ih]

theorem mem_erase {m : Memory} {a : Nat} {c : Host.Cell} : c ∈ Memory.erase m a ↔ c ∈ m ∧ c.1 ≠ a := by
  simp [Memory.erase]

theorem read_insert {m : Memory} {a c : Nat} {b : Byte} (h : ∀ d ∈ m, d.1 ≠ a) :
    Memory.read (Memory.insert m a b) c = if c = a then b else Memory.read m c := by
  induction m with
  | nil => simp [Memory.insert, Memory.read]
  | cons d rest ih =>
    obtain ⟨e, w⟩ := d
    have he : e ≠ a := h (e, w) (by simp)
    have ih' := ih fun d hd => h d (by simp [hd])
    by_cases hlt : a < e
    · simp [Memory.insert, hlt, Memory.read]
    · simp only [Memory.insert, if_neg hlt, Memory.read, ih']
      by_cases hc : c = a <;> by_cases hce : c = e <;> simp_all

/-- A byte written reads back; every other byte reads as before. Of every memory, canonical or not. -/
theorem read_write (m : Memory) (a c : Nat) (b : Byte) :
    Memory.read (Memory.write m a b) c = if c = a then b else Memory.read m c := by
  unfold Memory.write
  split
  · next hb =>
    by_cases hc : c = a
    · subst hc; simp [read_erase_same, hb]
    · simp [hc, read_erase_other hc]
  · rw [read_insert fun d hd => (mem_erase.mp hd).2]
    by_cases hc : c = a
    · simp [hc]
    · simp [hc, read_erase_other hc]

/-! ### The canonical form -/

/-- An address without an entry reads as its reset byte. -/
theorem read_of_not_listed {m : Memory} {a : Nat} (h : ∀ c ∈ m, c.1 ≠ a) : Memory.read m a = resetByte a := by
  induction m with
  | nil => rfl
  | cons d rest ih =>
    rw [Memory.read, if_neg (h d (List.mem_cons_self)).symm]
    exact ih fun c hc => h c (List.mem_cons_of_mem _ hc)

/-- A listed address of a memory in rising order reads as its entry. -/
theorem read_of_listed {m : Memory} {c : Host.Cell} (hm : List.Pairwise (fun c d : Host.Cell => c.1 < d.1) m) (h : c ∈ m) :
    Memory.read m c.1 = c.2 := by
  induction m with
  | nil => cases h
  | cons d rest ih =>
    rcases List.mem_cons.mp h with rfl | h
    · simp [Memory.read]
    · have : c.1 ≠ d.1 := Nat.ne_of_gt ((List.pairwise_cons.mp hm).1 c h)
      rw [Memory.read, if_neg this]
      exact ih (List.pairwise_cons.mp hm).2 h

theorem wf_nil : Memory.wf [] := by decide

theorem wf_erase {m : Memory} (h : Memory.wf m) (a : Nat) : Memory.wf (Memory.erase m a) :=
  ⟨h.1.filter _, fun c hc => h.2 c (mem_erase.mp hc).1⟩

theorem mem_insert {m : Memory} {a : Nat} {b : Byte} {c : Host.Cell} :
    c ∈ Memory.insert m a b ↔ c = (a, b) ∨ c ∈ m := by
  induction m with
  | nil => simp [Memory.insert]
  | cons d rest ih =>
    unfold Memory.insert
    split
    · simp
    · simp [ih]; grind

theorem wf_insert {m : Memory} (h : Memory.wf m) {a : Nat} {b : Byte} (ha : a < memSize) (hb : b ≠ resetByte a)
    (hm : ∀ d ∈ m, d.1 ≠ a) : Memory.wf (Memory.insert m a b) := by
  refine ⟨?_, fun c hc => ?_⟩
  · obtain ⟨h, -⟩ := h
    induction m with
    | nil => simp [Memory.insert]
    | cons d rest ih =>
      rw [List.pairwise_cons] at h
      unfold Memory.insert
      split
      · next hlt =>
        refine List.pairwise_cons.mpr ⟨fun e he => ?_, List.pairwise_cons.mpr h⟩
        rcases List.mem_cons.mp he with rfl | he
        · exact hlt
        · exact Nat.lt_trans hlt (h.1 e he)
      · next hlt =>
        have hd : d.1 ≠ a := hm d (by simp)
        refine List.pairwise_cons.mpr ⟨fun e he => ?_, ih (fun e he => hm e (by simp [he])) h.2⟩
        rcases mem_insert.mp he with rfl | he
        · show d.1 < a; omega
        · exact h.1 e he
  · rcases mem_insert.mp hc with rfl | hc
    · exact ⟨ha, hb⟩
    · exact h.2 c hc

/-- A write inside the 4096 bytes keeps the canonical form. -/
theorem wf_write {m : Memory} (h : Memory.wf m) {a : Nat} (ha : a < memSize) (b : Byte) : Memory.wf (Memory.write m a b) := by
  unfold Memory.write
  split
  · exact wf_erase h a
  · next hb => exact wf_insert (wf_erase h a) ha hb fun d hd => (mem_erase.mp hd).2

theorem wf_reset : Memory.wf State.reset.mem := wf_nil

/-- Two canonical memories that read alike everywhere are the same data. -/
theorem wf_ext {m n : Memory} (hm : Memory.wf m) (hn : Memory.wf n) (h : ∀ a, Memory.read m a = Memory.read n a) : m = n := by
  induction m generalizing n with
  | nil =>
    cases n with
    | nil => rfl
    | cons d rest =>
      have := h d.1
      simp [Memory.read] at this
      exact absurd this.symm (hn.2 d (by simp)).2
  | cons c ms ih =>
    cases n with
    | nil =>
      have := h c.1
      simp [Memory.read] at this
      exact absurd this (hm.2 c (by simp)).2
    | cons d ns =>
      obtain ⟨a, b⟩ := c
      obtain ⟨a', b'⟩ := d
      have hmp := List.pairwise_cons.mp hm.1
      have hnp := List.pairwise_cons.mp hn.1
      have hms : Memory.wf ms := ⟨hmp.2, fun c hc => hm.2 c (by simp [hc])⟩
      have hns : Memory.wf ns := ⟨hnp.2, fun c hc => hn.2 c (by simp [hc])⟩
      have low : ∀ {l : Memory} {k : Nat}, (∀ d ∈ l, k < d.1) → Memory.read l k = resetByte k := by
        intro l k hl
        induction l with
        | nil => rfl
        | cons e l ihl =>
          have : k ≠ e.1 := by have := hl e (by simp); omega
          simp [Memory.read, this]
          exact ihl fun d hd => hl d (by simp [hd])
      have key : a = a' := by
        rcases Nat.lt_trichotomy a a' with hlt | he | hlt
        · have h1 := h a
          have : Memory.read ((a', b') :: ns) a = resetByte a := low (by
            intro d hd
            rcases List.mem_cons.mp hd with rfl | hd
            · exact hlt
            · exact Nat.lt_trans hlt (hnp.1 d hd))
          simp [Memory.read] at h1
          rw [Memory.read] at this
          have ne := (hm.2 (a, b) (by simp)).2
          simp_all
        · exact he
        · have h1 := h a'
          have : Memory.read ((a, b) :: ms) a' = resetByte a' := low (by
            intro d hd
            rcases List.mem_cons.mp hd with rfl | hd
            · exact hlt
            · exact Nat.lt_trans hlt (hmp.1 d hd))
          rw [this] at h1
          simp [Memory.read] at h1
          exact absurd h1.symm (hn.2 (a', b') (by simp)).2
      subst key
      have hb : b = b' := by simpa [Memory.read] using h a
      subst hb
      rw [ih hms hns fun k => ?_]
      by_cases hk : k = a
      · subst hk
        rw [low hmp.1, low hnp.1]
      · simpa [Memory.read, hk] using h k

/-! ### Bytes of a state -/

theorem readByte_writeByte (a c : Nat) (b : Byte) (s : State) :
    readByte (writeByte a b s) c = if c = a then b else readByte s c := read_write _ _ _ _

@[simp] theorem readByte_writeByte_same (a : Nat) (b : Byte) (s : State) : readByte (writeByte a b s) a = b := by
  simp [readByte_writeByte]

theorem readByte_writeByte_of_ne {a c : Nat} (h : c ≠ a) (b : Byte) (s : State) :
    readByte (writeByte a b s) c = readByte s c := by
  simp [readByte_writeByte, h]

/-- `writeBytes` changes memory only. -/
theorem writeBytes_eq (bs : List Byte) : ∀ (a : Nat) (s : State),
    writeBytes a bs s = { s with mem := (writeBytes a bs s).mem } := by
  induction bs with
  | nil => intro a s; rfl
  | cons b rest ih =>
    intro a s
    rw [writeBytes, ih (a + 1) (writeByte a b s)]
    rfl

/-- What each byte holds after `writeBytes`: the byte stored there, or what it held. -/
theorem readByte_writeBytes (bs : List Byte) : ∀ (a : Nat) (s : State) (c : Nat),
    readByte (writeBytes a bs s) c =
      if h : a ≤ c ∧ c < a + bs.length then bs[c - a]'(by omega) else readByte s c := by
  induction bs with
  | nil =>
    intro a s c
    simp [writeBytes]
  | cons b rest ih =>
    intro a s c
    rw [writeBytes, ih]
    by_cases h1 : a + 1 ≤ c ∧ c < a + 1 + rest.length
    · have h2 : a ≤ c ∧ c < a + (b :: rest).length := by simp; omega
      rw [dif_pos h1, dif_pos h2]
      have e : c - a = (c - (a + 1)) + 1 := by omega
      simp [e]
    · rw [dif_neg h1, readByte_writeByte]
      by_cases h3 : c = a
      · have h2 : a ≤ c ∧ c < a + (b :: rest).length := by simp; omega
        rw [if_pos h3, dif_pos h2]
        simp [h3]
      · have h2 : ¬ (a ≤ c ∧ c < a + (b :: rest).length) := by simp; omega
        rw [if_neg h3, dif_neg h2]

/-- Bytes stored inside the 4096 bytes keep the canonical form. -/
theorem wf_writeBytes (bs : List Byte) : ∀ (a : Nat) (s : State), a + bs.length ≤ memSize → Memory.wf s.mem →
    Memory.wf (writeBytes a bs s).mem := by
  induction bs with
  | nil => intro a s _ h; exact h
  | cons b rest ih =>
    intro a s ha h
    simp only [List.length_cons] at ha
    exact ih (a + 1) _ (by omega) (wf_write h (by omega) b)

/-! ### Checked accesses -/

theorem rangeFault_none {a len : Nat} : rangeFault a len = none ↔ len = 0 ∨ a + len ≤ memSize := by
  unfold rangeFault
  split <;> simp <;> omega

theorem rangeFault_some {a len : Nat} {f : Fault} :
    rangeFault a len = some f ↔ (len ≠ 0 ∧ memSize < a + len) ∧ f = .addressOutOfRange (max a memSize) := by
  unfold rangeFault
  split
  · next h => simp [h, eq_comm]
  · next h => simp [h]

/-- A checked read answers exactly if it is in range, with the bytes in ascending order. -/
theorem memRead_ok {s : State} {a len : Nat} {bs : List Byte} :
    memRead s a len = .ok bs ↔
      (len = 0 ∨ a + len ≤ memSize) ∧ bs = (List.range len).map fun k => readByte s (a + k) := by
  unfold memRead
  cases h : rangeFault a len with
  | none => simp [← rangeFault_none, h, eq_comm]
  | some f => simp [← rangeFault_none, h]

/-- A checked read raises only AddressOutOfRange, with the first offending address. -/
theorem memRead_error {s : State} {a len : Nat} {f : Fault} :
    memRead s a len = .error f ↔ (len ≠ 0 ∧ memSize < a + len) ∧ f = .addressOutOfRange (max a memSize) := by
  rw [← rangeFault_some]
  unfold memRead
  cases h : rangeFault a len <;> simp

/-- A checked store answers exactly if it is in range, and it stores every byte. -/
theorem memWrite_ok {s t : State} {a : Nat} {bs : List Byte} :
    memWrite a bs s = .ok t ↔ (bs = [] ∨ a + bs.length ≤ memSize) ∧ t = writeBytes a bs s := by
  rw [← List.length_eq_zero_iff, ← rangeFault_none]
  unfold memWrite
  cases h : rangeFault a bs.length with
  | none => simp only [Except.ok.injEq, true_and]; exact eq_comm
  | some f => simp

/-- A checked store raises only AddressOutOfRange, with the first offending address. -/
theorem memWrite_error {s : State} {a : Nat} {bs : List Byte} {f : Fault} :
    memWrite a bs s = .error f ↔ (bs.length ≠ 0 ∧ memSize < a + bs.length) ∧ f = .addressOutOfRange (max a memSize) := by
  rw [← rangeFault_some]
  unfold memWrite
  cases h : rangeFault a bs.length <;> simp

/-- The fetch answers exactly if both bytes are in memory, with the byte at `pc` high. -/
theorem fetch_ok {s : State} {w : Opcode} :
    fetch s = .ok w ↔
      s.pc.toNat ≤ 4094 ∧ w = joinBytes (readByte s s.pc.toNat) (readByte s (s.pc.toNat + 1)) := by
  have e : s.pc.toNat ≤ 4094 ↔ rangeFault s.pc.toNat 2 = none := by rw [rangeFault_none, memSize]; omega
  unfold fetch
  rw [e]
  cases h : rangeFault s.pc.toNat 2 with
  | none => simp [eq_comm]
  | some f => simp

/-- The fetch raises exactly if a byte of it lies above 4095. -/
theorem fetch_error {s : State} {f : Fault} :
    fetch s = .error f ↔ 4094 < s.pc.toNat ∧ f = .addressOutOfRange (max s.pc.toNat memSize) := by
  have e : rangeFault s.pc.toNat 2 = some f ↔ 4094 < s.pc.toNat ∧ f = .addressOutOfRange (max s.pc.toNat memSize) := by
    rw [rangeFault_some]; exact and_congr_left fun _ => by rw [memSize]; omega
  rw [← e]
  unfold fetch
  cases h : rangeFault s.pc.toNat 2 <;> simp

end Sys2Proof.Machine
end

