-- ==== Sys2Proof/Laws/Registers.lean ====
section
/-! SUPPORT. What the register file, the stack and the keyboard operations do, said once. -/

namespace Sys2Proof.Machine

/-! ### Registers -/

theorem reg_ext {s t : State} (h : ∀ r, reg t r = reg s r) : t.v = s.v := by
  refine Vector.ext fun k hk => ?_
  have := h (BitVec.ofNat 4 k)
  have hk' : k % 16 = k := Nat.mod_eq_of_lt hk
  simpa [reg, hk'] using this

/-- A written register reads as the value written; every other register reads as before. -/
theorem reg_setReg (r q : Reg) (b : Byte) (s : State) : reg (setReg r b s) q = if q = r then b else reg s q := by
  unfold reg setReg
  by_cases h : q = r
  · subst h; simp
  · have : r.toNat ≠ q.toNat := fun e => h (BitVec.eq_of_toNat_eq e.symm)
    simp [h, Vector.getElem_set_ne, this]

@[simp] theorem reg_setReg_same (r : Reg) (b : Byte) (s : State) : reg (setReg r b s) r = b := by
  simp [reg_setReg]

theorem reg_setReg_of_ne {r q : Reg} (h : q ≠ r) (b : Byte) (s : State) : reg (setReg r b s) q = reg s q := by
  simp [reg_setReg, h]

/-- Every register of the reset state. -/
@[simp] theorem reg_reset (r : Reg) : reg State.reset r = params.resetV := by
  simp [reg]

/-! ### Moving a run of registers -/

@[simp] theorem length_regsUpTo (s : State) (x : Reg) : (regsUpTo s x).length = x.toNat + 1 := by
  simp [regsUpTo]

theorem getElem_regsUpTo (s : State) (x : Reg) (k : Nat) (h : k < (regsUpTo s x).length) :
    (regsUpTo s x)[k] = reg s (BitVec.ofNat 4 k) := by
  simp [regsUpTo]

/-- `setRegsFrom` writes registers only. -/
theorem setRegsFrom_eq (bs : List Byte) : ∀ (k : Nat) (s : State),
    setRegsFrom k bs s = { s with v := (setRegsFrom k bs s).v } := by
  induction bs with
  | nil => intro k s; rfl
  | cons b rest ih =>
    intro k s
    rw [setRegsFrom, ih (k + 1) (setReg (BitVec.ofNat 4 k) b s)]
    rfl

/-- What each register holds after `setRegsFrom`: the byte meant for it, or what it held. -/
theorem reg_setRegsFrom (bs : List Byte) : ∀ (k : Nat) (s : State) (r : Reg), k + bs.length ≤ 16 →
    reg (setRegsFrom k bs s) r =
      if h : k ≤ r.toNat ∧ r.toNat < k + bs.length then bs[r.toNat - k]'(by omega) else reg s r := by
  induction bs with
  | nil =>
    intro k s r _
    simp [setRegsFrom]
  | cons b rest ih =>
    intro k s r hk
    simp only [List.length_cons] at hk
    have hk16 : (BitVec.ofNat 4 k).toNat = k := by simp; omega
    rw [setRegsFrom, ih (k + 1) _ r (by omega)]
    by_cases h1 : k + 1 ≤ r.toNat ∧ r.toNat < k + 1 + rest.length
    · have h2 : k ≤ r.toNat ∧ r.toNat < k + (b :: rest).length := by simp; omega
      rw [dif_pos h1, dif_pos h2]
      have e : r.toNat - k = (r.toNat - (k + 1)) + 1 := by omega
      simp [e]
    · rw [dif_neg h1, reg_setReg]
      by_cases h3 : r = BitVec.ofNat 4 k
      · have h4 : r.toNat = k := by rw [h3, hk16]
        have h2 : k ≤ r.toNat ∧ r.toNat < k + (b :: rest).length := by simp; omega
        rw [if_pos h3, dif_pos h2]
        simp [h4]
      · have h4 : r.toNat ≠ k := fun e => h3 (BitVec.eq_of_toNat_eq (by rw [e, hk16]))
        have h2 : ¬ (k ≤ r.toNat ∧ r.toNat < k + (b :: rest).length) := by simp; omega
        rw [if_neg h3, dif_neg h2]

/-! ### Call stack -/

/-- If a push answers, it put the entry on top and changed nothing else, and the stack was not full. -/
theorem push_spec {depth : Option Nat} {a : Addr} {s t : State} (h : push depth a s = .ok t) :
    t = setStack (a :: s.stack) s ∧ ∀ n, depth = some n → s.stack.length < n := by
  cases depth with
  | none => simp [push] at h; exact ⟨h.symm, by simp⟩
  | some n =>
    by_cases hn : n ≤ s.stack.length
    · simp [push, hn] at h
    · simp [push, hn] at h
      exact ⟨h.symm, by simp; omega⟩

/-- If a pop answers, the entry was on top and only the stack changed. -/
theorem pop_spec {s t : State} {a : Addr} (h : pop s = .ok (a, t)) :
    s.stack = a :: t.stack ∧ t = setStack t.stack s := by
  unfold pop at h
  split at h
  · cases h
  · next b rest e =>
    simp only [Except.ok.injEq, Prod.mk.injEq] at h
    obtain ⟨rfl, rfl⟩ := h
    exact ⟨e, rfl⟩

/-! ### Keyboard -/

@[simp] theorem mem_insertKey (j k : Key) (ks : List Key) : j ∈ insertKey k ks ↔ j = k ∨ j ∈ ks := by
  unfold insertKey
  split <;> simp <;> grind

@[simp] theorem mem_removeKey (j k : Key) (ks : List Key) : j ∈ removeKey k ks ↔ j ∈ ks ∧ j ≠ k := by
  simp [removeKey]

/-- Pressing a key keeps the keys distinct. -/
theorem insertKey_nodup {ks : List Key} (k : Key) (h : ks.Nodup) : (insertKey k ks).Nodup := by
  unfold insertKey
  split
  · exact h
  · next hk =>
    refine List.nodup_append.mpr ⟨h, by simp, fun a ha b hb e => hk ?_⟩
    rwa [← List.mem_singleton.mp hb, ← e]

/-- Releasing a key keeps the keys distinct. -/
theorem removeKey_nodup {ks : List Key} (k : Key) (h : ks.Nodup) : (removeKey k ks).Nodup := h.filter _

/-- A key counts as pressed exactly if the byte is the code of a pressed key. -/
theorem keyPressed_iff (s : State) (b : Byte) : keyPressed s b = true ↔ ∃ k ∈ s.keys, keyByte k = b := by
  simp [keyPressed, keyByte]

end Sys2Proof.Machine
end

