-- ==== Sys2Proof/Laws/Step.lean ====
section
/-! SUPPORT. What a step and a command can do, said once (one inversion lemma each), and what the shared shapes of the
meanings do. -/

namespace Sys2Proof.Machine

/-! ### The step -/

/-- A step that answers a next state fetched an opcode, decoded it, and executed the instruction. -/
theorem step_next {s t : State} (h : step s = .next t) :
    ∃ w i, fetch s = .ok w ∧ decodeWord w = some i ∧ exec i s = .next t := by
  unfold step at h
  split at h
  · cases h
  · next w hw =>
    split at h
    · cases h
    · next i hi => exact ⟨w, i, hw, hi, h⟩

/-- A step that raises did so at fetch, at decode or in the execute phase, in this order. -/
theorem step_fault {s : State} {f : Fault} (h : step s = .fault f) :
    fetch s = .error f ∨
    (∃ w, fetch s = .ok w ∧ decodeWord w = none ∧ f = .invalidOpcode w) ∨
    (∃ w i, fetch s = .ok w ∧ decodeWord w = some i ∧ exec i s = .fault f) := by
  unfold step at h
  split at h
  · next g hg => cases h; exact .inl hg
  · next w hw =>
    split at h
    · next hn => cases h; exact .inr (.inl ⟨w, hw, hn, rfl⟩)
    · next i hi => exact .inr (.inr ⟨w, i, hw, hi, h⟩)

theorem step_of_fetch_decode {s : State} {w : Opcode} {i : Instr} (hw : fetch s = .ok w) (hi : decodeWord w = some i) :
    step s = exec i s := by
  simp [step, hw, hi]

theorem step_of_fetch_error {s : State} {f : Fault} (h : fetch s = .error f) : step s = .fault f := by
  simp [step, h, raise]

theorem step_of_decode_none {s : State} {w : Opcode} (hw : fetch s = .ok w) (hi : decodeWord w = none) :
    step s = .fault (.invalidOpcode w) := by
  simp [step, hw, hi, raise]

/-- A run of the host's machine goes on from the state that a step answers. -/
theorem core_run_succ (n : Nat) {s t : core.State} (h : core.step s = .next t) :
    Host.Core.run core (n + 1) s = Host.Core.run core n t := by
  simp only [Host.Core.run, h]

/-! ### Shared shapes of the meanings -/

/-- A store from `I` that answers was in range, stored every byte and went on. -/
theorem storeAtIndex_next {bs : List Byte} {s t : State} :
    storeAtIndex bs s = .next t ↔
      (bs = [] ∨ indexBase s + bs.length ≤ memSize) ∧ t = advance (writeBytes (indexBase s) bs s) := by
  unfold storeAtIndex
  cases h : memWrite (indexBase s) bs s with
  | ok u =>
    obtain ⟨hr, rfl⟩ := memWrite_ok.mp h
    simp [hr, eq_comm]
  | error f =>
    obtain ⟨hr, -⟩ := memWrite_error.mp h
    simp only [raise, reduceCtorEq, false_iff, not_and]
    rintro (rfl | hle)
    · simp at hr
    · omega

/-- The three digits at one address leave the units digit there (spec/43_index_memory.md R143). -/
theorem storeDigitsAtOne_next {b : Byte} {s t : State} (h : storeDigitsAtOne b s = .next t) :
    indexBase s < memSize ∧
      t = advance (writeByte (indexBase s) (units b)
        (writeByte (indexBase s) (tens b) (writeByte (indexBase s) (hundreds b) s))) := by
  unfold storeDigitsAtOne at h
  split at h
  · cases h
  · next u hu =>
    obtain ⟨hr, rfl⟩ := memWrite_ok.mp hu
    split at h
    · cases h
    · next w hw =>
      obtain ⟨-, rfl⟩ := memWrite_ok.mp hw
      obtain ⟨-, rfl⟩ := storeAtIndex_next.mp h
      refine ⟨?_, rfl⟩
      simp at hr
      omega

/-- A sprite draw that answers flipped the sprite's cells, wrote the flag and went on. -/
theorem drawAtIndex_next {e : DrawEdge} {x y : Reg} {n : BitVec 4} {s t : State} (h : drawAtIndex e x y n s = .next t) :
    ∃ bytes, memRead s (indexBase s) n.toNat = .ok bytes ∧
      let drawn := flipCells (spriteCells e (reg s x).toNat (reg s y).toNat 0 bytes) false s
      t = advance (setReg flagReg (flagByte drawn.2) drawn.1) := by
  unfold drawAtIndex at h
  split at h
  · cases h
  · next bytes hb => exact ⟨bytes, hb, by simpa [drawSprite] using h.symm⟩

/-- The same of the instruction at this hardware's `DRAW_EDGE`. -/
theorem execDrw_next {x y : Reg} {n : BitVec 4} {s t : State} (h : execDrw x y n s = .next t) :
    ∃ bytes, memRead s (indexBase s) n.toNat = .ok bytes ∧
      let drawn := flipCells (spriteCells params.drawEdge (reg s x).toNat (reg s y).toNat 0 bytes) false s
      t = advance (setReg flagReg (flagByte drawn.2) drawn.1) := drawAtIndex_next h

/-- A wait for a key that answers either wrote the last pressed key and went on, or found none pressed and changed nothing. -/
theorem waitForKey_next {k : KeyTiebreak} {x : Reg} {s t : State} (h : waitForKey k x s = .next t) :
    (∃ j, lastKey k s = some j ∧ t = advance (setReg x (keyByte j) s)) ∨ (lastKey k s = none ∧ t = s) := by
  unfold waitForKey at h
  split at h
  · next j hj => cases h; exact .inl ⟨j, hj, rfl⟩
  · next hn => cases h; exact .inr ⟨hn, rfl⟩

/-- A call that answers pushed its own address and went to its target; at a finite depth the stack was not full. -/
theorem callAtDepth_next {depth : Option Nat} {nnn : BitVec 12} {s t : State} (h : callAtDepth depth nnn s = .next t) :
    t = jumpTo (zextAddr nnn) (setStack (s.pc :: s.stack) s) ∧ ∀ n, depth = some n → s.stack.length < n := by
  unfold callAtDepth at h
  split at h
  · cases h
  · next u hu =>
    obtain ⟨rfl, hd⟩ := push_spec hu
    cases h
    exact ⟨rfl, hd⟩

/-! ### The other commands -/

@[simp] theorem tickDown_toNat (b : Byte) : (tickDown b).toNat = b.toNat - 1 := by
  unfold tickDown
  split
  · next h => rw [h]; rfl
  · next h =>
    have : b.toNat ≠ 0 := fun e => h (BitVec.eq_of_toNat_eq (by simpa using e))
    bv_omega

/-- A program load that answers fitted and stored the image at the load offset, and changed nothing else. -/
theorem loadImageAt_next {c : Config} {image : List Byte} {s t : State} :
    loadImageAt c image s = .next t ↔ imageFits c image = true ∧ t = writeBytes c.loadOffset.toNat image s := by
  unfold loadImageAt
  split
  · next h => rw [Host.Outcome.next.injEq, and_iff_right h]; exact eq_comm
  · next h => exact ⟨(nomatch ·), fun e => absurd e.1 h⟩

/-- The same at this hardware's `LOAD_OFFSET`. -/
theorem loadImage_next {image : List Byte} {s t : State} :
    loadImage image s = .next t ↔ imageFits params image = true ∧ t = writeBytes params.loadOffset.toNat image s :=
  loadImageAt_next

/-- A command either answers, and that is the state after it, or leaves the state as it was. -/
theorem afterCommand_cases (c : Command) (s : State) :
    command c s = .next (afterCommand c s) ∨ afterCommand c s = s := by
  unfold afterCommand
  cases h : command c s <;> simp

theorem runCommands_append (cs ds : List Command) : ∀ s, runCommands (cs ++ ds) s = runCommands ds (runCommands cs s) := by
  induction cs with
  | nil => intro s; rfl
  | cons c rest ih => intro s; exact ih _

/-- What holds at a state and is kept by every command holds after every schedule. -/
theorem runCommands_induction {P : State → Prop} (keep : ∀ c s t, P s → command c s = .next t → P t) (cs : List Command) :
    ∀ s, P s → P (runCommands cs s) := by
  induction cs with
  | nil => intro s h; exact h
  | cons c rest ih =>
    intro s h
    refine ih _ ?_
    rcases afterCommand_cases c s with hc | hc
    · exact keep c s _ h hc
    · rw [hc]; exact h

end Sys2Proof.Machine
end

