-- ==== Sys2Proof/Laws/Frame.lean ====
section
/-! SUPPORT. What each shared update leaves unchanged, said in the terms of Safety.lean. -/

namespace Sys2Proof.Machine

@[simp] theorem sameAt_refl (p : Place) (s : State) : sameAt p s s := by cases p <;> rfl

theorem sameAt_trans {p : Place} {s t u : State} (h : sameAt p s t) (g : sameAt p t u) : sameAt p s u := by
  cases p <;> exact Eq.trans g h

theorem sameAt_advance {p : Place} (h : p ≠ .pc) (s : State) : sameAt p s (advance s) := by
  cases p <;> first | rfl | exact absurd rfl h

theorem sameAt_jumpTo {p : Place} (h : p ≠ .pc) (a : Addr) (s : State) : sameAt p s (jumpTo a s) := by
  cases p <;> first | rfl | exact absurd rfl h

theorem sameAt_skipIf {p : Place} (h : p ≠ .pc) (c : Bool) (s : State) : sameAt p s (skipIf c s) := by
  cases p <;> first | rfl | exact absurd rfl h

theorem sameAt_setStack {p : Place} (h : p ≠ .stack) (as : List Addr) (s : State) : sameAt p s (setStack as s) := by
  cases p <;> first | rfl | exact absurd rfl h

theorem sameAt_setReg {p : Place} {r : Reg} (h : p ≠ .reg r) (b : Byte) (s : State) : sameAt p s (setReg r b s) := by
  cases p with
  | reg q => exact reg_setReg_of_ne (fun e => h (by rw [e])) b s
  | _ => rfl

theorem sameAt_writeBytes {p : Place} {a : Nat} {bs : List Byte} (h : ∀ k, k < bs.length → p ≠ .byte (a + k)) (s : State) :
    sameAt p s (writeBytes a bs s) := by
  rw [writeBytes_eq]
  cases p with
  | byte c =>
    refine (readByte_writeBytes bs a s c).trans (dif_neg fun ⟨h1, h2⟩ => h (c - a) (by omega) ?_)
    rw [Nat.add_sub_cancel' h1]
  | _ => rfl

theorem sameAt_setRegsFrom {p : Place} {k : Nat} {bs : List Byte} (hk : k + bs.length ≤ 16)
    (h : ∀ r : Reg, k ≤ r.toNat → r.toNat < k + bs.length → p ≠ .reg r) (s : State) :
    sameAt p s (setRegsFrom k bs s) := by
  cases p with
  | reg r => exact (reg_setRegsFrom bs k s r hk).trans (dif_neg fun e => h r e.1 e.2 rfl)
  | _ => rw [setRegsFrom_eq]; rfl

theorem sameAt_flipCells {p : Place} (h : p ≠ .dirty) (hc : ∀ px py, p ≠ .cell px py) (cells : List (Col × Row)) (hit : Bool)
    (s : State) : sameAt p s (flipCells cells hit s).1 := by
  rw [flipCells_eq]
  cases p with
  | dirty => exact absurd rfl h
  | cell px py => exact absurd rfl (hc px py)
  | _ => rfl

/-- The range check of a data access is the fault that Safety.lean names. -/
theorem rangeFault_index (s : State) (len : Nat) : rangeFault (indexBase s) len = dataFault s len := by
  unfold rangeFault dataFault memSize
  have : (len ≠ 0 ∧ 4096 < indexBase s + len) ↔ (0 < len ∧ 4095 < indexBase s + len - 1) := by omega
  simp only [this]

end Sys2Proof.Machine
end

