-- ==== Sys2Proof/Laws/PerInstr.lean ====
section
/-! SUPPORT. Statements about every instruction as syntax, one lemma per constructor. -/

namespace Sys2Proof.Laws

-- one lemma after the other: few threads, little memory
set_option Elab.async false

/-! ### The encoding of an instruction is an instance of its row of the opcode table (spec/30_encoding.md R75) -/

/-- The row of an instruction is one of the 34, and its opcode selects that row. -/
def EncodingRow.Statement (i : Instr) : Prop :=
  rowOf i ∈ opcodeRows ∧ (rowOf i).selects (encode i) = true

theorem EncodingRow.cls : EncodingRow.Statement .cls := ⟨by decide, by decide⟩

theorem EncodingRow.ret : EncodingRow.Statement .ret := ⟨by decide, by decide⟩

theorem EncodingRow.jp (nnn : BitVec 12) : EncodingRow.Statement (.jp nnn) := by
  refine ⟨by simp only [rowOf]; decide, ?_⟩
  simp only [OpcodeRow.selects, rowOf, encode, and_maskOp, fieldOp_wordNNN]
  decide

theorem EncodingRow.call (nnn : BitVec 12) : EncodingRow.Statement (.call nnn) := by
  refine ⟨by simp only [rowOf]; decide, ?_⟩
  simp only [OpcodeRow.selects, rowOf, encode, and_maskOp, fieldOp_wordNNN]
  decide

theorem EncodingRow.seImm (x : Reg) (nn : Byte) : EncodingRow.Statement (.seImm x nn) := by
  refine ⟨by simp only [rowOf]; decide, ?_⟩
  simp only [OpcodeRow.selects, rowOf, encode, and_maskOp, fieldOp_wordXNN]
  decide

theorem EncodingRow.sneImm (x : Reg) (nn : Byte) : EncodingRow.Statement (.sneImm x nn) := by
  refine ⟨by simp only [rowOf]; decide, ?_⟩
  simp only [OpcodeRow.selects, rowOf, encode, and_maskOp, fieldOp_wordXNN]
  decide

theorem EncodingRow.seReg (x y : Reg) : EncodingRow.Statement (.seReg x y) := by
  refine ⟨by simp only [rowOf]; decide, ?_⟩
  simp only [OpcodeRow.selects, rowOf, encode, and_maskOpN, fieldOp_wordXYN, fieldN_wordXYN]
  decide

theorem EncodingRow.ldImm (x : Reg) (nn : Byte) : EncodingRow.Statement (.ldImm x nn) := by
  refine ⟨by simp only [rowOf]; decide, ?_⟩
  simp only [OpcodeRow.selects, rowOf, encode, and_maskOp, fieldOp_wordXNN]
  decide

theorem EncodingRow.addImm (x : Reg) (nn : Byte) : EncodingRow.Statement (.addImm x nn) := by
  refine ⟨by simp only [rowOf]; decide, ?_⟩
  simp only [OpcodeRow.selects, rowOf, encode, and_maskOp, fieldOp_wordXNN]
  decide

theorem EncodingRow.ldReg (x y : Reg) : EncodingRow.Statement (.ldReg x y) := by
  refine ⟨by simp only [rowOf]; decide, ?_⟩
  simp only [OpcodeRow.selects, rowOf, encode, and_maskOpN, fieldOp_wordXYN, fieldN_wordXYN]
  decide

theorem EncodingRow.orReg (x y : Reg) : EncodingRow.Statement (.orReg x y) := by
  refine ⟨by simp only [rowOf]; decide, ?_⟩
  simp only [OpcodeRow.selects, rowOf, encode, and_maskOpN, fieldOp_wordXYN, fieldN_wordXYN]
  decide

theorem EncodingRow.andReg (x y : Reg) : EncodingRow.Statement (.andReg x y) := by
  refine ⟨by simp only [rowOf]; decide, ?_⟩
  simp only [OpcodeRow.selects, rowOf, encode, and_maskOpN, fieldOp_wordXYN, fieldN_wordXYN]
  decide

theorem EncodingRow.xorReg (x y : Reg) : EncodingRow.Statement (.xorReg x y) := by
  refine ⟨by simp only [rowOf]; decide, ?_⟩
  simp only [OpcodeRow.selects, rowOf, encode, and_maskOpN, fieldOp_wordXYN, fieldN_wordXYN]
  decide

theorem EncodingRow.addReg (x y : Reg) : EncodingRow.Statement (.addReg x y) := by
  refine ⟨by simp only [rowOf]; decide, ?_⟩
  simp only [OpcodeRow.selects, rowOf, encode, and_maskOpN, fieldOp_wordXYN, fieldN_wordXYN]
  decide

theorem EncodingRow.subReg (x y : Reg) : EncodingRow.Statement (.subReg x y) := by
  refine ⟨by simp only [rowOf]; decide, ?_⟩
  simp only [OpcodeRow.selects, rowOf, encode, and_maskOpN, fieldOp_wordXYN, fieldN_wordXYN]
  decide

theorem EncodingRow.shr (x y : Reg) : EncodingRow.Statement (.shr x y) := by
  refine ⟨by simp only [rowOf]; decide, ?_⟩
  simp only [OpcodeRow.selects, rowOf, encode, and_maskOpN, fieldOp_wordXYN, fieldN_wordXYN]
  decide

theorem EncodingRow.subnReg (x y : Reg) : EncodingRow.Statement (.subnReg x y) := by
  refine ⟨by simp only [rowOf]; decide, ?_⟩
  simp only [OpcodeRow.selects, rowOf, encode, and_maskOpN, fieldOp_wordXYN, fieldN_wordXYN]
  decide

theorem EncodingRow.shl (x y : Reg) : EncodingRow.Statement (.shl x y) := by
  refine ⟨by simp only [rowOf]; decide, ?_⟩
  simp only [OpcodeRow.selects, rowOf, encode, and_maskOpN, fieldOp_wordXYN, fieldN_wordXYN]
  decide

theorem EncodingRow.sneReg (x y : Reg) : EncodingRow.Statement (.sneReg x y) := by
  refine ⟨by simp only [rowOf]; decide, ?_⟩
  simp only [OpcodeRow.selects, rowOf, encode, and_maskOpN, fieldOp_wordXYN, fieldN_wordXYN]
  decide

theorem EncodingRow.ldI (nnn : BitVec 12) : EncodingRow.Statement (.ldI nnn) := by
  refine ⟨by simp only [rowOf]; decide, ?_⟩
  simp only [OpcodeRow.selects, rowOf, encode, and_maskOp, fieldOp_wordNNN]
  decide

theorem EncodingRow.jpV0 (nnn : BitVec 12) : EncodingRow.Statement (.jpV0 nnn) := by
  refine ⟨by simp only [rowOf]; decide, ?_⟩
  simp only [OpcodeRow.selects, rowOf, encode, and_maskOp, fieldOp_wordNNN]
  decide

theorem EncodingRow.rnd (x : Reg) (nn : Byte) : EncodingRow.Statement (.rnd x nn) := by
  refine ⟨by simp only [rowOf]; decide, ?_⟩
  simp only [OpcodeRow.selects, rowOf, encode, and_maskOp, fieldOp_wordXNN]
  decide

theorem EncodingRow.drw (x y : Reg) (n : BitVec 4) : EncodingRow.Statement (.drw x y n) := by
  refine ⟨by simp only [rowOf]; decide, ?_⟩
  simp only [OpcodeRow.selects, rowOf, encode, and_maskOp, fieldOp_wordXYN]
  decide

theorem EncodingRow.skp (x : Reg) : EncodingRow.Statement (.skp x) := by
  refine ⟨by simp only [rowOf]; decide, ?_⟩
  simp only [OpcodeRow.selects, rowOf, encode, and_maskOpNN, fieldOp_wordXNN, fieldY_wordXNN, fieldN_wordXNN]
  decide

theorem EncodingRow.sknp (x : Reg) : EncodingRow.Statement (.sknp x) := by
  refine ⟨by simp only [rowOf]; decide, ?_⟩
  simp only [OpcodeRow.selects, rowOf, encode, and_maskOpNN, fieldOp_wordXNN, fieldY_wordXNN, fieldN_wordXNN]
  decide

theorem EncodingRow.ldVxDt (x : Reg) : EncodingRow.Statement (.ldVxDt x) := by
  refine ⟨by simp only [rowOf]; decide, ?_⟩
  simp only [OpcodeRow.selects, rowOf, encode, and_maskOpNN, fieldOp_wordXNN, fieldY_wordXNN, fieldN_wordXNN]
  decide

theorem EncodingRow.ldVxK (x : Reg) : EncodingRow.Statement (.ldVxK x) := by
  refine ⟨by simp only [rowOf]; decide, ?_⟩
  simp only [OpcodeRow.selects, rowOf, encode, and_maskOpNN, fieldOp_wordXNN, fieldY_wordXNN, fieldN_wordXNN]
  decide

theorem EncodingRow.ldDt (x : Reg) : EncodingRow.Statement (.ldDt x) := by
  refine ⟨by simp only [rowOf]; decide, ?_⟩
  simp only [OpcodeRow.selects, rowOf, encode, and_maskOpNN, fieldOp_wordXNN, fieldY_wordXNN, fieldN_wordXNN]
  decide

theorem EncodingRow.ldSt (x : Reg) : EncodingRow.Statement (.ldSt x) := by
  refine ⟨by simp only [rowOf]; decide, ?_⟩
  simp only [OpcodeRow.selects, rowOf, encode, and_maskOpNN, fieldOp_wordXNN, fieldY_wordXNN, fieldN_wordXNN]
  decide

theorem EncodingRow.addI (x : Reg) : EncodingRow.Statement (.addI x) := by
  refine ⟨by simp only [rowOf]; decide, ?_⟩
  simp only [OpcodeRow.selects, rowOf, encode, and_maskOpNN, fieldOp_wordXNN, fieldY_wordXNN, fieldN_wordXNN]
  decide

theorem EncodingRow.ldF (x : Reg) : EncodingRow.Statement (.ldF x) := by
  refine ⟨by simp only [rowOf]; decide, ?_⟩
  simp only [OpcodeRow.selects, rowOf, encode, and_maskOpNN, fieldOp_wordXNN, fieldY_wordXNN, fieldN_wordXNN]
  decide

theorem EncodingRow.ldB (x : Reg) : EncodingRow.Statement (.ldB x) := by
  refine ⟨by simp only [rowOf]; decide, ?_⟩
  simp only [OpcodeRow.selects, rowOf, encode, and_maskOpNN, fieldOp_wordXNN, fieldY_wordXNN, fieldN_wordXNN]
  decide

theorem EncodingRow.storeRegs (x : Reg) : EncodingRow.Statement (.storeRegs x) := by
  refine ⟨by simp only [rowOf]; decide, ?_⟩
  simp only [OpcodeRow.selects, rowOf, encode, and_maskOpNN, fieldOp_wordXNN, fieldY_wordXNN, fieldN_wordXNN]
  decide

theorem EncodingRow.loadRegs (x : Reg) : EncodingRow.Statement (.loadRegs x) := by
  refine ⟨by simp only [rowOf]; decide, ?_⟩
  simp only [OpcodeRow.selects, rowOf, encode, and_maskOpNN, fieldOp_wordXNN, fieldY_wordXNN, fieldN_wordXNN]
  decide

end Sys2Proof.Laws
end

