-- ==== Sys2Proof/Laws/Variants.lean ====
section
/-! SUPPORT. The state at construction under any glyph table: which cells it lists, that it is canonical, and that the defaults
give `State.reset`. -/

namespace Sys2Proof.Machine

theorem cellsWhereDiffer_self (bs : List Byte) : ∀ a, cellsWhereDiffer a bs bs = [] := by
  induction bs with
  | nil => intro a; rfl
  | cons b rest ih => intro a; simp [cellsWhereDiffer, ih]

/-- The state at construction under the spec's defaults is the one that lists nothing. -/
theorem State.resetAt_params : State.resetAt params = State.reset :=
  congrArg (State.resetWith params) (cellsWhereDiffer_self _ 0)

/-- Each listed cell holds the byte of the one table where the other has another byte. -/
theorem mem_cellsWhereDiffer {c : Host.Cell} (bs : List Byte) : ∀ (a : Nat) (ds : List Byte),
    c ∈ cellsWhereDiffer a bs ds ↔
      ∃ k, ∃ h : k < bs.length, ∃ g : k < ds.length, bs[k] ≠ ds[k] ∧ c = (a + k, bs[k]) := by
  induction bs with
  | nil => intro a ds; simp [cellsWhereDiffer]
  | cons b rest ih =>
    intro a ds
    cases ds with
    | nil => simp [cellsWhereDiffer]
    | cons d ds =>
      have tail : c ∈ cellsWhereDiffer (a + 1) rest ds ↔
          ∃ k, ∃ h : k + 1 < (b :: rest).length, ∃ g : k + 1 < (d :: ds).length,
            (b :: rest)[k + 1] ≠ (d :: ds)[k + 1] ∧ c = (a + (k + 1), (b :: rest)[k + 1]) := by
        rw [ih]; simp [Nat.add_assoc, Nat.add_comm 1]
      unfold cellsWhereDiffer
      split
      · next e =>
        rw [tail]
        refine ⟨fun ⟨k, h⟩ => ⟨k + 1, h⟩, fun ⟨k, h, g, hne, hc⟩ => ?_⟩
        cases k with
        | zero => exact absurd e hne
        | succ k => exact ⟨k, h, g, hne, hc⟩
      · next e =>
        rw [List.mem_cons, tail]
        constructor
        · rintro (hc | ⟨k, h⟩)
          · exact ⟨0, by simp, by simp, e, by simpa using hc⟩
          · exact ⟨k + 1, h⟩
        · rintro ⟨k, h, g, hne, hc⟩
          cases k with
          | zero => exact .inl (by simpa using hc)
          | succ k => exact .inr ⟨k, h, g, hne, hc⟩

theorem cellsWhereDiffer_sorted (bs : List Byte) : ∀ (a : Nat) (ds : List Byte),
    List.Pairwise (fun c d : Host.Cell => c.1 < d.1) (cellsWhereDiffer a bs ds) := by
  induction bs with
  | nil => intro a ds; exact List.Pairwise.nil
  | cons b rest ih =>
    intro a ds
    cases ds with
    | nil => exact List.Pairwise.nil
    | cons d ds =>
      unfold cellsWhereDiffer
      split
      · exact ih _ _
      · refine List.Pairwise.cons (fun c hc => ?_) (ih _ _)
        obtain ⟨k, -, -, -, rfl⟩ := (mem_cellsWhereDiffer rest _ ds).mp hc
        show a < a + 1 + k
        omega

/-- The memory at construction is canonical under every glyph table. -/
theorem wf_resetAt (c : Config) : Memory.wf (State.resetAt c).mem := by
  refine ⟨cellsWhereDiffer_sorted _ 0 _, fun d hd => ?_⟩
  obtain ⟨k, _, g, hne, rfl⟩ := (mem_cellsWhereDiffer _ 0 _).mp hd
  have hl : params.glyphTable.length = 80 := rfl
  refine ⟨by show 0 + k < 4096; omega, ?_⟩
  have e : resetByte (0 + k) = params.glyphTable[k] := by rw [resetByte, Nat.zero_add, List.getD_eq_getElem _ _ g]
  rw [e]
  exact hne

end Sys2Proof.Machine
end

