-- ==== Sys2Proof/Tests/Slice0.lean ====
section
/-! SUPPORT. The model's own tests. Expected results come from spec/95_test_vectors.md (T and V numbers) and from the encoding
tables of spec/30_encoding.md. The `witness_` theorems show, for each obligation with hypotheses, a concrete state and
operands that meet them, at the boundary of each clause. -/

namespace Sys2Proof.Tests
open Sys2Proof.Machine

/-! ### Helpers -/

/-- A field of the state a result leads to. -/
def got {α : Type} (r : Result) (f : State → α) : Option α :=
  match r with
  | .next t => some (f t)
  | .fault _ => none
  | .refused _ => none

/-- The fault a result raises. -/
def fails (r : Result) : Option Fault :=
  match r with
  | .next _ => none
  | .fault f => some f
  | .refused _ => none

/-- The state right after `reset` with registers `V[0]`, `V[1]` and `V[0xF]`, and `I`. -/
def start (v0 v1 vf : Byte) (i : Addr) : State :=
  setIndex i (setReg 0xF vf (setReg 1 v1 (setReg 0 v0 State.reset)))

/-- One step of an opcode from a state. -/
def run (w : Nat) (s : State) : Result := step (s.withFetchWord 16 w)

/-- The state with `pc` set. -/
def at' (pc : Addr) (s : State) : State := jumpTo pc s

/-- The state with bytes stored from an address. -/
def store (a : Nat) (bs : List Byte) (s : State) : State := writeBytes a bs s

/-- The state with keys pressed, oldest first. -/
def keyed (ks : List Key) (s : State) : State := { s with keys := ks }

/-- The state with `dirty` cleared. -/
def clean (s : State) : State := { s with dirty := false }


/-! ### Decoding: a word written out bit by bit from the fields of R72 and the pattern of R75, one for each constructor -/

theorem test_decode_cls : decodeWord 0b0000000011100000 = some (.cls) := by decide
theorem test_decode_ret : decodeWord 0b0000000011101110 = some (.ret) := by decide
theorem test_decode_jp : decodeWord 0b0001101010111100 = some (.jp 0xABC) := by decide
theorem test_decode_call : decodeWord 0b0010001100001010 = some (.call 0x30A) := by decide
theorem test_decode_seImm : decodeWord 0b0011101001000010 = some (.seImm 0xA 0x42) := by decide
theorem test_decode_sneImm : decodeWord 0b0100101001000010 = some (.sneImm 0xA 0x42) := by decide
theorem test_decode_seReg : decodeWord 0b0101000100100000 = some (.seReg 1 2) := by decide
theorem test_decode_ldImm : decodeWord 0b0110101001000010 = some (.ldImm 0xA 0x42) := by decide
theorem test_decode_addImm : decodeWord 0b0111000000001010 = some (.addImm 0 0x0A) := by decide
theorem test_decode_ldReg : decodeWord 0b1000000100100000 = some (.ldReg 1 2) := by decide
theorem test_decode_orReg : decodeWord 0b1000000100100001 = some (.orReg 1 2) := by decide
theorem test_decode_andReg : decodeWord 0b1000000100100010 = some (.andReg 1 2) := by decide
theorem test_decode_xorReg : decodeWord 0b1000000100100011 = some (.xorReg 1 2) := by decide
theorem test_decode_addReg : decodeWord 0b1000111100000100 = some (.addReg 0xF 0) := by decide
theorem test_decode_subReg : decodeWord 0b1000000000010101 = some (.subReg 0 1) := by decide
theorem test_decode_shr : decodeWord 0b1000000000110110 = some (.shr 0 3) := by decide
theorem test_decode_subnReg : decodeWord 0b1000111100010111 = some (.subnReg 0xF 1) := by decide
theorem test_decode_shl : decodeWord 0b1000111100101110 = some (.shl 0xF 2) := by decide
theorem test_decode_sneReg : decodeWord 0b1001000100100000 = some (.sneReg 1 2) := by decide
theorem test_decode_ldI : decodeWord 0b1010000100100011 = some (.ldI 0x123) := by decide
theorem test_decode_jpV0 : decodeWord 0b1011001100000000 = some (.jpV0 0x300) := by decide
theorem test_decode_rnd : decodeWord 0b1100111111110000 = some (.rnd 0xF 0xF0) := by decide
theorem test_decode_drw : decodeWord 0b1101000100100101 = some (.drw 1 2 5) := by decide
theorem test_decode_skp : decodeWord 0b1110001110011110 = some (.skp 3) := by decide
theorem test_decode_sknp : decodeWord 0b1110001110100001 = some (.sknp 3) := by decide
theorem test_decode_ldVxDt : decodeWord 0b1111001100000111 = some (.ldVxDt 3) := by decide
theorem test_decode_ldVxK : decodeWord 0b1111111100001010 = some (.ldVxK 0xF) := by decide
theorem test_decode_ldDt : decodeWord 0b1111001100010101 = some (.ldDt 3) := by decide
theorem test_decode_ldSt : decodeWord 0b1111001100011000 = some (.ldSt 3) := by decide
theorem test_decode_addI : decodeWord 0b1111001000011110 = some (.addI 2) := by decide
theorem test_decode_ldF : decodeWord 0b1111001000101001 = some (.ldF 2) := by decide
theorem test_decode_ldB : decodeWord 0b1111001000110011 = some (.ldB 2) := by decide
theorem test_decode_storeRegs : decodeWord 0b1111001001010101 = some (.storeRegs 2) := by decide
theorem test_decode_loadRegs : decodeWord 0b1111001001100101 = some (.loadRegs 2) := by decide

/-- T7: the byte at the lower address is the high byte. -/
theorem test_decode_big_endian :
    decode [0x6A, 0x42, 0x99] = .ok (.ldImm 0xA 0x42, [0x99]) := by decide

theorem test_decode_truncated :
    decode [0x6A] = .error (.truncated [0x6A]) := by decide

/-- V190 to V196. -/
theorem test_decode_invalid :
    [0x0000, 0x0123, 0x00E1, 0x00FE, 0x5121, 0x9121, 0x8128, 0x812F, 0xE09F, 0xE0FF, 0xF000, 0xF0FF, 0xF075, 0xF085].all
      (fun w => decodeTableWord 16 w == none) = true := by decide

/-- R75: the rows are disjoint: two rows differ in a bit that both of their masks test. -/
theorem test_opcode_rows_disjoint :
    List.Pairwise (fun r q : OpcodeRow => r.pattern &&& q.mask ≠ q.pattern &&& r.mask) opcodeRows := by decide +kernel

theorem test_opcode_rows_count :
    opcodeRows.length = 34 := by decide

/-- T5. -/
theorem test_encode_splits_bytes :
    encodeBytes (.call 0x30A) = [0x23, 0x0A] := by decide

/-! ### Well-formedness: an ill-formed term for each check -/

theorem test_params_wf :
    params.wf = true := by decide

theorem test_offset_in_glyphs_refused :
    ({ params with loadOffset := 0x4E } : Config).offsetAboveGlyphs = false ∧ ({ params with loadOffset := 0x4E } : Config).wf = false := by decide

theorem test_odd_offset_refused :
    ({ params with loadOffset := 0x201 } : Config).offsetEven = false ∧ ({ params with loadOffset := 0x201 } : Config).wf = false := by decide

theorem test_offset_above_memory_refused :
    ({ params with loadOffset := 0x1000 } : Config).offsetInMemory = false ∧ ({ params with loadOffset := 0x1000 } : Config).wf = false := by decide

theorem test_short_glyph_table_refused :
    ({ params with glyphTable := [0xF0] } : Config).glyphsComplete = false ∧ ({ params with glyphTable := [0xF0] } : Config).wf = false := by decide

/-- V213. -/
theorem test_image_of_3585_bytes_refused :
    imageFits params (List.replicate 3585 0) = false := by rw [imageFits, List.length_replicate]; decide

/-- V212. -/
theorem test_image_of_3584_bytes_fits :
    imageFits params (List.replicate 3584 0) = true := by rw [imageFits, List.length_replicate]; decide

/-- Unsorted, a reset byte listed (twice), an address outside memory; the last is canonical. -/
theorem test_ill_formed_memory_refused :
    ¬ Memory.wf [(0x300, 1), (0x200, 1)] ∧ ¬ Memory.wf [(0x300, 0)] ∧ ¬ Memory.wf [(0, 0xF0)] ∧ ¬ Memory.wf [(0x1000, 1)] ∧
      Memory.wf [(0, 0), (0x200, 1)] := by decide

/-! ### Reset (R45, R46) -/

/-- The glyph A stands at 10 times 5 (R57). -/
theorem test_reset_glyph_of_ten :
    readByte State.reset 50 = 0xF0 ∧ readByte State.reset 53 = 0x90 ∧ readByte State.reset 79 = 0x80 ∧ readByte State.reset 80 = 0 := by decide

/-! ### Control transfer (R100 to R105) -/

/-- V7. -/
theorem test_ret_adds_two :
    got (run 0x00EE (at' 0x30A (setStack [0x246, 0x200] State.reset))) (fun t => (t.pc, t.stack)) = some (0x248, [0x200]) := by decide

/-- V8. -/
theorem test_ret_on_empty_stack :
    fails (run 0x00EE State.reset) = some .stackUnderflow := by decide

/-- V1. -/
theorem test_jp :
    got (run 0x1ABC State.reset) (fun t => (t.pc, t.stack)) = some (0xABC, []) := by decide

/-- V3. -/
theorem test_jp_odd :
    got (run 0x1201 State.reset) (fun t => t.pc) = some 0x201 := by decide

/-- V4. -/
theorem test_call_pushes_own_address :
    got (run 0x230A (at' 0x246 State.reset)) (fun t => (t.pc, t.stack)) = some (0x30A, [0x246]) := by decide

/-- V11, V12. -/
theorem test_call_on_full_stack :
    fails (callAtDepth (some 0) 0x200 State.reset) = some .stackOverflow ∧
      fails (callAtDepth (some 2) 0x400 (setStack [0x300, 0x200] State.reset)) = some .stackOverflow := by decide

/-- V10. -/
theorem test_jpV0_no_mask :
    got (run 0xBFFF (start 0xFF 0 0 0)) (fun t => (t.pc, fails (step t))) = some (0x10FE, some (.addressOutOfRange 0x10FE)) := by decide

/-! ### Skips (R110 to R114) -/

/-- V20. -/
theorem test_seImm_skips :
    got (run 0x3A42 (setReg 0xA 0x42 State.reset)) (fun t => t.pc) = some 0x204 := by decide

/-- V21. -/
theorem test_seImm_not :
    got (run 0x3A42 (setReg 0xA 0x41 State.reset)) (fun t => t.pc) = some 0x202 := by decide

/-- V22. -/
theorem test_sneImm_not :
    got (run 0x4A42 (setReg 0xA 0x42 State.reset)) (fun t => t.pc) = some 0x202 := by decide

/-- V23. -/
theorem test_sneImm_skips :
    got (run 0x4A42 (setReg 0xA 0x41 State.reset)) (fun t => t.pc) = some 0x204 := by decide

/-- V25, with x = 0, y = 1. -/
theorem test_seReg_not :
    got (run 0x5010 (start 7 8 0 0)) (fun t => t.pc) = some 0x202 := by decide

/-- V26, with x = y = 0. -/
theorem test_seReg_same :
    got (run 0x5000 (start 9 0 0 0)) (fun t => t.pc) = some 0x204 := by decide

/-- V28, with x = 0, y = 1. -/
theorem test_sneReg_skips :
    got (run 0x9010 (start 7 8 0 0)) (fun t => t.pc) = some 0x204 := by decide

/-- V29, with x = y = 0. -/
theorem test_sneReg_same :
    got (run 0x9000 (start 9 0 0 0)) (fun t => t.pc) = some 0x202 := by decide

/-! ### Register load and ALU (R120 to R134) -/

/-- V41. -/
theorem test_ldImm_flag_register :
    got (run 0x6F07 (start 0 0 1 0)) (fun t => (reg t 0xF, t.pc)) = some (7, 0x202) := by decide

/-- V42. -/
theorem test_addImm_wraps :
    got (run 0x700A (start 0xFA 0 0x55 0)) (fun t => (reg t 0, reg t 0xF, t.pc)) = some (4, 0x55, 0x202) := by decide

/-- V44. -/
theorem test_addImm_flag_register :
    got (run 0x7F01 (start 0 0 0xFF 0)) (fun t => (reg t 0xF)) = some (0) := by decide

/-- V45, with x = 0, y = 1. -/
theorem test_ldReg :
    got (run 0x8010 (start 1 0x99 0 0)) (fun t => (reg t 0, reg t 1)) = some (0x99, 0x99) := by decide

/-- V46, with x = 0, y = 1. -/
theorem test_orReg :
    got (run 0x8011 (start 0x0F 0xF0 0x55 0)) (fun t => (reg t 0, reg t 0xF)) = some (0xFF, 0x55) := by decide

/-- V47, with x = 0, y = 1. -/
theorem test_andReg :
    got (run 0x8012 (start 0x3C 0x0F 0x55 0)) (fun t => (reg t 0, reg t 0xF)) = some (0x0C, 0x55) := by decide

/-- V48, with x = 0, y = 1. -/
theorem test_xorReg :
    got (run 0x8013 (start 0xFF 0x0F 0x55 0)) (fun t => (reg t 0, reg t 0xF)) = some (0xF0, 0x55) := by decide

/-- V50. -/
theorem test_addReg_carries :
    got (run 0x8014 (start 0xC8 0x64 0 0)) (fun t => (reg t 0, reg t 1, reg t 0xF, t.pc)) = some (0x2C, 100, 1, 0x202) := by decide

/-- V56: the sum 7 is lost. -/
theorem test_addReg_flag_last :
    got (run 0x8F04 (start 4 0 3 0)) (fun t => (reg t 0xF)) = some (0) := by decide

/-- V58. -/
theorem test_subReg_borrows :
    got (run 0x8015 (start 5 10 0 0)) (fun t => (reg t 0, reg t 1, reg t 0xF, t.pc)) = some (0xFB, 10, 0, 0x202) := by decide

/-- V64: the difference 4 is lost. -/
theorem test_subReg_flag_last :
    got (run 0x8F05 (start 5 0 9 0)) (fun t => (reg t 0xF)) = some (1) := by decide

/-- V69, with y = 1. -/
theorem test_shr_ignores_y :
    got (run 0x8016 (start 5 0xEE 0 0)) (fun t => (reg t 0, reg t 1, reg t 0xF)) = some (2, 0xEE, 1) := by decide

/-- V70. -/
theorem test_shr_flag_register :
    got (run 0x8F06 (start 0 0 3 0)) (fun t => (reg t 0xF)) = some (0) := by decide

/-- V73. -/
theorem test_subnReg_borrows :
    got (run 0x8017 (start 10 5 0 0)) (fun t => (reg t 0, reg t 0xF)) = some (0xFB, 0) := by decide

/-- V74. -/
theorem test_subnReg_equal :
    got (run 0x8017 (start 7 7 0 0)) (fun t => (reg t 0, reg t 0xF)) = some (0, 1) := by decide

/-- V80. -/
theorem test_shl :
    [shlWith .fullByte 0 (start 0x81 0 0 0), shlWith .msb 0 (start 0x81 0 0 0), run 0x800E (start 0x81 0 0 0)].map (got · fun t => (reg t 0, reg t 0xF)) =
      [some (0x02, 0x81), some (0x02, 1), some (0x02, 0x81)] := by decide

/-- V87. -/
theorem test_shl_flag_register :
    [shlWith .fullByte 0xF (start 0 0 0x40 0), shlWith .msb 0xF (start 0 0 0x40 0)].map (got · fun t => reg t 0xF) = [some 0x80, some 0x00] := by decide

/-- R132: one draw. -/
theorem test_rnd_draws_once :
    got (run 0xCFF0 State.reset) (fun t => (t.draws, t.pc, reg t 0)) = some (1, 0x202, 0) := by decide

/-- V78: any draw. -/
theorem test_rnd_zero_mask :
    got (exec (.rnd 0 0) (start 0x11 0 0 0)) (fun t => reg t 0) = some 0 := congrArg some (BitVec.and_zero (x := Config.freeByte 0))

/-! ### Address register and memory (R140 to R146) -/

/-- V100. -/
theorem test_ldI :
    got (run 0xA123 (State.reset)) (fun t => (t.i, t.pc)) = some (0x123, 0x202) := by decide

/-- V102, with x = 0. -/
theorem test_addI_no_mask :
    got (run 0xF01E (start 1 0 0x55 0xFFF)) (fun t => (t.i, reg t 0xF)) = some (0x1000, 0x55) := by decide

/-- V103, with x = 0. -/
theorem test_addI_wraps :
    got (run 0xF01E (start 2 0 0x55 0xFFFF)) (fun t => (t.i, reg t 0xF)) = some (1, 0x55) := by decide

/-- V105. -/
theorem test_ldF_digit :
    got (run 0xF029 (start 0x0A 0 0 0)) (fun t => (t.i)) = some (0x32) := by decide

/-- V108. -/
theorem test_ldF_no_mask :
    got (run 0xF029 (start 0xFF 0 0 0)) (fun t => (t.i)) = some (0x4FB) := by decide

/-- V120. -/
theorem test_ldB :
    [storeDigits .sameAddress 254 (store 0x300 [0xAA, 0xBB, 0xCC] (start 0 0 0 0x300)),
      storeDigits .threeAddress 254 (store 0x300 [0xAA, 0xBB, 0xCC] (start 0 0 0 0x300)),
      run 0xF033 (store 0x300 [0xAA, 0xBB, 0xCC] (start 254 0 0 0x300))].map (got · fun t => (readByte t 0x300, readByte t 0x301, readByte t 0x302)) =
      [some (4, 0xBB, 0xCC), some (2, 5, 4), some (4, 0xBB, 0xCC)] := by decide

/-- V122, V123. -/
theorem test_ldB_last_byte :
    got (run 0xF033 (start 123 0 0 0xFFF)) (fun t => (readByte t 0xFFF, t.i)) = some (3, 0xFFF) ∧
      fails (storeDigits .threeAddress 123 (start 123 0 0 0xFFE)) = some (.addressOutOfRange 0x1000) := by decide

/-- V109, with x = 1. -/
theorem test_storeRegs :
    got (run 0xF155 (store 0x302 [0x99] (start 0x11 0x22 0 0x300))) (fun t => ((List.range 3).map fun k => readByte t (0x300 + k), t.i)) =
      some ([0x11, 0x22, 0x99], 0x300) := by decide

/-- V115. -/
theorem test_storeRegs_out_of_range :
    fails (run 0xF155 (start 0x11 0x22 0 0xFFF)) = some (.addressOutOfRange 0x1000) := by decide

/-- V111, with x = 1. -/
theorem test_loadRegs :
    got (run 0xF165 (setReg 2 0x99 (store 0x300 [0x11, 0x22, 0x33] (start 0 0 0 0x300)))) (fun t => (reg t 0, reg t 1, reg t 2, t.i)) =
      some (0x11, 0x22, 0x99, 0x300) := by decide

/-- V112, V114. -/
theorem test_loadRegs_last_byte :
    got (run 0xFF65 (store 0xFFF [0xAF] (start 0 0 0 0xFF0))) (fun t => reg t 0xF) = some 0xAF ∧
      fails (run 0xFF65 (start 0 0 0 0xFF1)) = some (.addressOutOfRange 0x1000) := by decide

/-! ### Display (R150 to R152) -/

/-- V140. -/
theorem test_cls :
    got (run 0x00E0 (clean (flipPixel 3 4 State.reset))) (fun t => (pixel t 3 4, t.dirty, t.pc)) = some (false, true, 0x202) := by decide

/-- V143. -/
theorem test_drw_erases :
    got (run 0xD011 (store 0x300 [0xF0] (flipPixel 3 0 (start 2 0 0 0x300)))) (fun t => ((List.finRange 8).map fun px => pixel t (px.castLE (by decide)) 0, reg t 0xF)) =
      some ([false, false, true, false, true, true, false, false], 1) := by decide

/-- V142. -/
theorem test_drw_wraps :
    got (run 0xD011 (store 0x300 [0xC0] (clean (start 63 31 0 0x300)))) (fun t => (pixel t 63 31, pixel t 0 31, pixel t 0 0, reg t 0xF, t.dirty)) =
      some (true, true, false, 0, true) := by decide

/-! ### Keyboard and timers (R160 to R166) -/

/-- V160. -/
theorem test_skp :
    got (run 0xE09E (keyed [5] (start 5 0 0 0))) (fun t => (t.pc)) = some (0x204) := by decide

/-- V162. -/
theorem test_skp_no_mask :
    got (run 0xE09E (keyed [5] (start 0x15 0 0 0))) (fun t => (t.pc)) = some (0x202) := by decide

/-- V164. -/
theorem test_sknp :
    got (run 0xE0A1 (keyed [4] (start 5 0 0 0))) (fun t => (t.pc)) = some (0x204) := by decide

/-- V165. -/
theorem test_sknp_no_mask :
    got (run 0xE0A1 (keyed [5] (start 0x15 0 0 0))) (fun t => (t.pc)) = some (0x204) := by decide

/-- V166. -/
theorem test_ldVxDt :
    got (run 0xF307 (setDelay 0x2A State.reset)) (fun t => (reg t 3, t.dt, t.pc)) = some (0x2A, 0x2A, 0x202) := by decide

/-- V168. -/
theorem test_ldVxK_last_pressed :
    got (run 0xF00A (keyed [3, 7] State.reset)) (fun t => (reg t 0, t.pc, t.keys)) = some (7, 0x202, [3, 7]) := by decide

/-- V167. -/
theorem test_ldVxK_waits :
    got (run 0xF00A (start 9 0 0 0)) (fun t => (reg t 0, t.pc)) = some (9, 0x200) := by decide

/-- V173, with x = 0. -/
theorem test_ldDt :
    got (run 0xF015 (start 0x3C 0 0 0)) (fun t => (t.dt, t.st)) = some (60, 0) := by decide

/-- V174, with x = 0. -/
theorem test_ldSt :
    got (run 0xF018 (start 0x3C 0 0 0)) (fun t => (t.st, t.dt, t.sounding)) = some (60, 0, false) := by decide

/-! ### Commands (R32, R185, R200 to R203) -/

/-- V176. -/
theorem test_tick :
    got (command .tick (setSpeaker 1 (setDelay 0xFF State.reset))) (fun t => (t.dt, t.st, t.sounding)) = some (0xFE, 0, true) := by decide

/-- V169, V170, V177. -/
theorem test_keys_in_order_of_insertion :
    (runCommands [.press 3, .press 7, .press 3] State.reset).keys = [3, 7] ∧
      (runCommands [.press 3, .press 7, .release 3, .press 3, .release 9] State.reset).keys = [7, 3] := by decide

/-- V210. -/
theorem test_reset_command :
    got (command .reset (setStack [1] (keyed [4] (at' 0x300 (start 9 9 9 7))))) (fun t => (reg t 1, t.i, t.pc, t.stack, t.keys)) =
      some (0, 0, 0x200, [], [4]) ∧
    got (command .reset (clean (store 0 [0] State.reset))) (fun t => (readByte t 0, t.dirty)) = some (0xF0, true) := by decide

/-- V215. -/
theorem test_load_touches_memory_only :
    got (command (.loadProgram [0x12, 0x00]) (at' 0x300 (start 0 5 0 0))) (fun t => (readByte t 0x200, readByte t 0x201, t.pc, reg t 1)) = some (0x12, 0, 0x300, 5) := by decide

/-! ### Fetch (R52, R54, R59) -/

/-- V200. -/
theorem test_fetch_at_odd_address :
    got (step (at' 0x201 (store 0x200 [0x00, 0x61, 0x05, 0x00] State.reset))) (fun t => (reg t 1, t.pc)) = some (5, 0x203) := by decide

/-- V190: no program is loaded. -/
theorem test_step_of_reset_state :
    core.step core.reset = .fault (.invalidOpcode 0) := rfl

/-- V199; and where no fetch can take place, the word goes to the load offset (log 22). -/
theorem test_step_runs_the_placed_word :
    got (run 0x6001 (at' 4094 State.reset)) (fun t => (reg t 0, t.pc)) = some (1, 0x1000) ∧
      got (run 0x6001 (at' 0x1000 State.reset)) (fun t => (reg t 0, t.pc)) = some (1, 0x202) := by decide

/-! ### Witnesses: the hypotheses of each obligation can be met, and each clause at its boundary -/

/-- Places that the frames of the statements speak of: a register next to the written ones, a byte just below a store, the register just
above a load. -/
theorem witness_frames :
    Place.reg 1 ∉ [Place.pc, .reg 0, .reg 0xF] ∧ Place.keys ∉ [Place.pc, .index] ∧ Place.index ≠ .pc ∧ Place.index ≠ .dirty ∧
      (∀ px py, Place.index ≠ .cell px py) ∧ (∀ k, k ≤ (0xF#4).toNat → Place.byte 0x2FF ≠ .byte (indexBase (start 0 0 0 0x300) + k)) ∧
      ∀ r : Reg, r.toNat ≤ (0xE#4).toNat → Place.reg 0xF ≠ .reg r := by
  refine ⟨by decide, by decide, by decide, by decide, nofun, fun k _ h => ?_, fun r hr h => ?_⟩
  · injection h with h
    have : indexBase (start 0 0 0 0x300) = 0x300 := by decide
    omega
  · injection h with h
    subst h
    exact absurd hr (by decide)

/-- The last address below 80 and the first from 80 on. -/
theorem witness_ResetCommandKeepsKeyboard :
    got (command .reset (store 79 [1, 1] State.reset)) (fun t => (readByte t 79, readByte t 80)) = some (0x80, 0) := by decide

/-- The highest address a fetch can use. -/
theorem witness_StepRunsDecodedInstruction :
    let s := (at' 4094 State.reset).withFetchWord 16 0x6001
    s.pc.toNat ≤ 4094 ∧ decodeWord (joinBytes (readByte s s.pc.toNat) (readByte s (s.pc.toNat + 1))) = some (.ldImm 0 1) := by decide

theorem witness_UndefinedOpcodeRaises :
    fetch (State.reset.withFetchWord 16 0x5121) = .ok 0x5121 ∧ ∀ r ∈ opcodeRows, r.selects 0x5121 = false := by decide

/-- V197, V10. -/
theorem witness_FetchAboveMemoryRaises :
    4094 < (at' 4095 State.reset).pc.toNat ∧ fails (step (at' 4095 State.reset)) = some (.addressOutOfRange 4096) ∧
      fails (step (at' 0x10FE State.reset)) = some (.addressOutOfRange 0x10FE) := by decide

theorem witness_FetchIsBigEndian :
    (at' 4094 State.reset).pc.toNat ≤ 4094 ∧ imageFits params (0x6A :: 0x42 :: [0x99]) = true := by decide

theorem witness_EncodeOfDecode :
    decodeWord 0xFF65 = some (.loadRegs 0xF) := by decide

theorem witness_DecodeFollowsOpcodeTable :
    decodeWord 0x8FFE = some (.shl 0xF 0xF) ∧ (⟨0x800E, 0xF00F⟩ : OpcodeRow) ∈ opcodeRows ∧ (⟨0x800E, 0xF00F⟩ : OpcodeRow).selects 0x8FFE = true := by decide

/-- Both clauses; the first at the value where the sum wraps. -/
theorem witness_ReturnResumesAfterCall :
    (setStack [0xFFFF, 0x200] State.reset).stack = 0xFFFF :: [0x200] ∧
      got (exec .ret (setStack [0xFFFF, 0x200] State.reset)) (fun t => t.pc) = some 1 ∧
      State.reset.stack = [] ∧ fails (exec .ret State.reset) = some .stackUnderflow := by decide

/-- The clause on a jump to itself. -/
theorem witness_JumpSetsPc :
    State.reset.pc.toNat = (0x200#12).toNat := by decide

/-- Words at the edge of each second level. -/
theorem witness_LevelsAgreeWithMap :
    [0x00EE, 0x5120, 0x5121, 0x812E, 0x812F, 0xE09E, 0xE09F, 0xF065, 0xF066].all (fun w => decodeLevels w == decodeWord w) = true := by decide

/-- The stack full and one below full. -/
theorem witness_CallAtFiniteDepth :
    2 ≤ (setStack [0x300, 0x200] State.reset).stack.length ∧ (setStack [0x200] State.reset).stack.length < 2 := by decide

/-- The state that returns is another one with the stack the call left. -/
theorem witness_CallThenReturn :
    got (exec (.call 0xFFF) State.reset) (fun t => (t.stack, (setStack t.stack State.reset).stack)) = some ([0x200], [0x200]) := by decide

/-- The smallest sum of the last clause. -/
theorem witness_JumpOffsetAddsV0 :
    4095 ≤ (0xFFF#12).toNat + (reg State.reset 0).toNat ∧ got (exec (.jpV0 0xFFF) State.reset) (fun t => fails (step t)) =
      some (some (.addressOutOfRange 4096)) := by decide

/-- The highest key, and the lowest byte that is no key. -/
theorem witness_SkipOnKey :
    (∃ k ∈ (keyed [0, 0xF] (start 0xF 0 0 0)).keys, k.toNat = (reg (keyed [0, 0xF] (start 0xF 0 0 0)) 0).toNat) ∧
      ¬ ∃ k ∈ (keyed [0, 0xF] (start 0x10 0 0 0)).keys, k.toNat = (reg (keyed [0, 0xF] (start 0x10 0 0 0)) 0).toNat := by decide

/-- The last bit number, and the first. -/
theorem witness_LogicBitByBit :
    7 < 8 ∧ got (exec (.orReg 0 1) (start 0x80 0x01 0 0)) (fun t => ((reg t 0).getLsbD 7, (reg t 0).getLsbD 0)) = some (true, true) := by decide

/-- The smallest sum with a carry, and the largest without. -/
theorem witness_AddRegistersSetsCarry :
    (0xE : Reg) ≠ 0xF ∧ 255 < (reg (start 0xFF 1 0 0) 0).toNat + (reg (start 0xFF 1 0 0) 1).toNat ∧
      ¬ 255 < (reg (start 0xFF 0 0 0) 0).toNat + (reg (start 0xFF 0 0 0) 1).toNat := by decide

/-- Equal operands, and a difference of minus one. -/
theorem witness_SubtractSetsNoBorrow :
    (0xE : Reg) ≠ 0xF ∧ (reg (start 7 7 0 0) 1).toNat ≤ (reg (start 7 7 0 0) 0).toNat ∧
      ¬ (reg (start 7 8 0 0) 1).toNat ≤ (reg (start 7 8 0 0) 0).toNat := by decide

/-- V67, V71: both clauses. -/
theorem witness_ShiftRightByOne :
    (0xE : Reg) ≠ 0xF ∧ got (exec (.shr 0xE 0) (setReg 0xE 0xFF State.reset)) (fun t => (reg t 0xE, reg t 0xF)) = some (0x7F, 1) ∧
      got (exec (.shr 0xF 0) (start 0 0 0xFE 0)) (fun t => reg t 0xF) = some 0 := by decide

/-- V83, V86: the five clauses on the value of the quirk and on x. -/
theorem witness_ShiftLeftByOne :
    [shlWith .fullByte 0xE (setReg 0xE 0x80 State.reset), shlWith .msb 0xE (setReg 0xE 0x80 State.reset)].map (got · fun t => (reg t 0xE, reg t 0xF)) =
      [some (0, 0x80), some (0, 1)] ∧
      [shlWith .fullByte 0xF (start 0 0 0x81 0), shlWith .msb 0xF (start 0 0 0x81 0)].map (got · fun t => reg t 0xF) = [some 0x02, some 0x02] := by decide

/-- A bit outside the mask, at each end. -/
theorem witness_RandomUnderMask :
    (0x7F#8).getLsbD 7 = false ∧ (0xFE#8).getLsbD 0 = false := by decide

/-- Each clause at the last address it covers. -/
theorem witness_DecimalDigitsStored :
    indexBase (start 255 0 0 4095) ≤ 4095 ∧ indexBase (start 255 0 0 4093) + 2 ≤ 4095 ∧ 4095 < indexBase (start 255 0 0 4096) ∧
      4095 < indexBase (start 255 0 0 4094) + 2 ∧
      fails (exec (.ldB 0) (start 255 0 0 4096)) = some (.addressOutOfRange 4096) ∧
      got (storeDigits .threeAddress 255 (start 0 0 0 4093)) (fun t => ((List.range 3).map fun k => readByte t (4093 + k))) = some [2, 5, 5] := by decide

/-- V113. -/
theorem witness_StoreRegistersAtIndex :
    indexBase (start 0 0 0 0xFF0) + (0xF#4).toNat ≤ 4095 ∧ 4095 < indexBase (start 0 0 0 0xFF1) + (0xF#4).toNat ∧
      got (exec (.storeRegs 0xF) (start 0x11 0 0x22 0xFF0)) (fun t => (readByte t 0xFF0, readByte t 0xFFF)) = some (0x11, 0x22) := by decide

theorem witness_LoadRegistersFromIndex :
    indexBase (start 0 0 0 0xFFF) + (0#4).toNat ≤ 4095 ∧ 4095 < indexBase (start 0 0 0 0x1000) + (0#4).toNat ∧
      got (exec (.loadRegs 0) (store 0xFFF [0x5A] (start 0 0 0 0xFFF))) (fun t => reg t 0) = some 0x5A := by decide

/-- V118: the stored bytes are the opcode that the next fetch reads. -/
theorem witness_StoreIsSeenByFetch :
    0 + 1 ≤ (1#4).toNat ∧ got (exec (.storeRegs 1) (at' 0x202 (start 0x12 2 0 0x202))) (fun t => fetch (at' 0x202 t)) = some (.ok 0x1202) ∧
      got (exec (.storeRegs 1) (at' 0x202 (start 0x12 2 0 0x202))) (fun t => ((at' 0x202 t).pc.toNat, decide ((at' 0x202 t).mem = t.mem))) =
        some (indexBase (start 0x12 2 0 0x202) + 0, true) := by decide

/-- V149, V150, V152: the last sprite byte in range and the first out of range; no byte at all. -/
theorem witness_DrawSpriteByXor :
    indexBase (start 0 0 0 0xFFE) + (2#4).toNat - 1 ≤ 4095 ∧ (0#4).toNat = 0 ∧
      (3#4).toNat ≠ 0 ∧ 4095 < indexBase (start 0 0 0 0xFFE) + (3#4).toNat - 1 ∧
      got (exec (.drw 0 1 2) (store 0xFFE [0x80, 0x80] (start 0 0 0 0xFFE))) (fun t => (pixel t 0 0, pixel t 0 1, reg t 0xF)) = some (true, true, 0) ∧
      got (exec (.drw 0 1 0) (clean (start 0 0 7 0x1000))) (fun t => (reg t 0xF, t.dirty)) = some (0, false) ∧
      fails (exec (.drw 0 1 3) (start 0 0 0 0xFFE)) = some (.addressOutOfRange 0x1000) := by decide

/-- V148, by the term in which the statements speak of a sprite. -/
theorem witness_sprite_toggles :
    spriteToggles 0 1 1 (store 0x300 [0x81] (start 0xFC 0 0 0x300)) 60 0 = true ∧
      spriteToggles 0 1 1 (store 0x300 [0x81] (start 0xFC 0 0 0x300)) 3 0 = true ∧
      spriteToggles 0 1 1 (store 0x300 [0x81] (start 0xFC 0 0 0x300)) 61 0 = false := by decide

/-- T4: one draw at (0,0), and a second draw from the state the first left. -/
theorem witness_DrawTwiceRestores :
    got (exec (.drw 0 1 1) (store 0x300 [0xFF] (start 0 0 0 0x300))) (fun t => (pixel t 7 0, reg t 0xF)) = some (true, 0) ∧
      got (exec (.drw 0 1 1) (store 0x300 [0xFF] (start 0 0 0 0x300))) (fun t => (reg t 0, reg t 1, t.i, readByte t 0x300)) =
        some (0, 0, 0x300, 0xFF) ∧
      got (exec (.drw 0 1 1) (store 0x300 [0xFF] (start 0 0 0 0x300)))
        (fun t => got (exec (.drw 0 1 1) t) fun w => (pixel w 7 0, reg w 0xF)) = some (some (false, 1)) := by decide

/-- V172: key 0 counts as a key. -/
theorem witness_WaitForKey :
    State.reset.keys = [] ∧ (keyed [3, 7] State.reset).keys = [3] ++ [7] ∧ (keyed [0] State.reset).keys = [] ++ [0] ∧
      got (exec (.ldVxK 0xF) (keyed [0] (start 0 0 9 0))) (fun t => reg t 0xF) = some 0 := by decide

/-- T8. -/
theorem witness_SoundingLastsCountdownTicks :
    0 < 3 ∧ 3 ≤ (setSpeaker 3 State.reset).st.toNat ∧
      (List.range 6).map (fun n => ((runCommands (List.replicate n .tick) (setSpeaker 3 State.reset)).sounding, (runCommands (List.replicate n .tick) (setSpeaker 3 State.reset)).st)) =
      [(false, 3), (true, 2), (true, 1), (true, 0), (false, 0), (false, 0)] := by decide

theorem witness_PressAndRelease :
    (3 : Key) ∈ (keyed [3, 7] State.reset).keys ∧ (0 : Key) ∉ (keyed [3, 7] State.reset).keys ∧ (7 : Key) ≠ 3 := by decide

/-- V212, V213: the longest image that fits and the shortest that does not. -/
theorem witness_LoadProgramCopies :
    params.loadOffset.toNat + [0x12, (0x00 : Byte)].length ≤ 4096 ∧ 1 < [0x12, (0x00 : Byte)].length ∧
      (∃ image : List Byte, image.length = 3584 ∧ params.loadOffset.toNat + image.length ≤ 4096) ∧
      ∃ image : List Byte, image.length = 3585 ∧ 4096 < params.loadOffset.toNat + image.length := by
  refine ⟨by decide, by decide, ⟨List.replicate 3584 0, List.length_replicate, ?_⟩, ⟨List.replicate 3585 0, List.length_replicate, ?_⟩⟩ <;>
    rw [List.length_replicate] <;> decide

/-- A state that meets the invariant with every part of it in use: a stored byte, two keys, a saved pc at its bound, and `pc` at
the last address a fetch can use. -/
theorem witness_good_state :
    GoodState (at' 4094 (keyed [3, 7] (setStack [4094] (store 4094 [0x00, 0xEE] State.reset)))) :=
  ⟨by decide, by decide, List.forall_mem_singleton.mpr (by decide), by decide⟩

theorem witness_StepKeepsInvariant :
    got (step (at' 4094 (keyed [3, 7] (setStack [4094] (store 4094 [0x00, 0xEE] State.reset))))) (fun t => t.pc) = some 4096 ∧
      got (step ((start 0xFF 0 0 0).withFetchWord 16 0xBFFF)) (fun t => t.pc) = some 0x10FE ∧
      GoodState ((start 0xFF 0 0 0).withFetchWord 16 0xBFFF) :=
  ⟨by decide, by decide, by decide, by decide, List.forall_mem_nil _, by decide⟩

/-- The first byte above a store is a place it may not write. -/
theorem witness_ExecWritesOnlyItsPlaces :
    got (exec (.storeRegs 1) (start 0x11 0x22 0 0x300)) (fun t => (readByte t 0x302, readByte t 0x2FF)) = some (0, 0) ∧
      ¬ mayWrite (.storeRegs 1) (start 0x11 0x22 0 0x300) (.byte 0x302) ∧ ¬ mayWrite (.addImm 0 1) State.reset (.reg 0xF) := by
  refine ⟨by decide, ?_, by simp [mayWrite]⟩
  rintro (h | ⟨k, hk, h⟩)
  · exact absurd h (by decide)
  · have hk : k < 2 := Nat.lt_succ_of_le hk
    interval_cases k <;> exact absurd h (by decide)

/-- A step that changes the delay timer, with `dirty` set before it. -/
theorem witness_StepLeavesDevicesAlone :
    got (run 0xF015 (setDelay 7 (start 9 0 0 0))) (fun t => (t.dirty, decide (t.dt ≠ 7), t.dt)) = some (true, true, 9) := by decide

/-- Two states that differ in `ST`, `sounding` and `dirty`, and a next state and a fault from the one. -/
theorem witness_OutputsAreInvisible :
    sameButOutputs (start 1 2 0 0) { start 1 2 0 0 with st := 5, sounding := true, dirty := false } ∧
      sameButOutputs ((start 1 2 0 0).withFetchWord 16 0x8014)
        { (start 1 2 0 0).withFetchWord 16 0x8014 with st := 5, sounding := true, dirty := false } ∧
      got (run 0x8014 (start 1 2 0 0)) (fun t => reg t 0) = some 3 ∧
      fails (step (start 1 2 0 0)) = some (.invalidOpcode 0) :=
  ⟨rfl, rfl, by decide, by decide⟩

/-- A next state and a fault. -/
theorem witness_KeyOrderSeenOnlyByWait :
    [7, 3].Perm (keyed [3, 7] (start 7 0 0 0)).keys ∧ (∀ x, Instr.skp 0 ≠ .ldVxK x) ∧
      got (exec (.skp 0) (keyed [3, 7] (start 7 0 0 0))) (fun t => t.pc) = some 0x204 ∧
      [7, 3].Perm (keyed [3, 7] (start 7 0 0 0x1000)).keys ∧ (∀ x, Instr.loadRegs 0 ≠ .ldVxK x) ∧
      fails (exec (.loadRegs 0) (keyed [3, 7] (start 7 0 0 0x1000))) = some (.addressOutOfRange 0x1000) := by decide

theorem witness_ExecRaisesOnlyAsListed :
    raises .ret State.reset = some .stackUnderflow ∧ raises (.loadRegs 0) (start 0 0 0 0x1000) = some (.addressOutOfRange 0x1000) ∧
      raises (.loadRegs 0) (start 0 0 0 0xFFF) = none ∧ raises (.drw 0 1 0) (start 0 0 0 0x1000) = none := by decide

theorem witness_RaiseRepeats :
    fails (run 0x00EE State.reset) = some .stackUnderflow ∧ fails (step (at' 4095 State.reset)) = some (.addressOutOfRange 4096) := by decide

/-- V2, a jump to itself. -/
theorem witness_SelfLoopStaysForEver : selfLoop (State.reset.withFetchWord 16 0x1200) :=
  ⟨0x200, by decide, by decide⟩

/-! ### Other values of the parameters (R6) -/

/-- Parameters of which every one differs from the defaults: in the opcode map the words of CLS and RET are exchanged and the field
positions of x and y too, and the glyph table begins with other bytes. -/
def other : Config where
  opcodeMap :=
    { rows := [(.cls, ⟨0x00EE, 0xFFFF⟩), (.ret, ⟨0x00E0, 0xFFFF⟩), (.ldReg, ⟨0x8000, 0xF00F⟩)]
      xAt := 4, yAt := 8, nAt := 0, nnAt := 0, nnnAt := 0 }
  loadOffset := 0x600
  glyphTable := [0x01, 0x90] ++ glyphTable.drop 2
  stackDepth := some 1
  shlFlag := .msb
  bcd := .threeAddress
  drawEdge := .wrap
  keyTiebreak := .lastInserted
  resetV := 1
  resetI := 2
  resetDt := 3

theorem test_other_wf : other.wf = true := by decide

/-- R71, R75: the row and the fields are those of the map. -/
theorem test_decode_by_another_map :
    decodeBy other.opcodeMap 0x00EE = some .cls ∧ decodeBy other.opcodeMap 0x8120 = some (.ldReg 2 1) ∧
      decodeBy other.opcodeMap 0x1200 = none := by decide

theorem test_step_by_another_map :
    got (stepAt other (State.reset.withFetchWord 16 0x00EE)) (fun t => (pixel t 0 0, t.pc)) = some (false, 0x202) ∧
      fails (stepAt other (State.reset.withFetchWord 16 0x00E0)) = some .stackUnderflow := by decide

/-- V80, V120, V12 at the other values. -/
theorem test_exec_at_other_values :
    got (execAt other (.shl 0 0) (start 0x81 0 0 0)) (fun t => (reg t 0, reg t 0xF)) = some (2, 1) ∧
      got (execAt other (.ldB 0) (start 254 0 0 0x300)) (fun t => (readByte t 0x300, readByte t 0x302)) = some (2, 4) ∧
      fails (execAt other (.call 0x400) (setStack [0x300] State.reset)) = some .stackOverflow := by decide

/-- A listed byte of the other glyph table, a byte that both tables have, the last glyph byte and the byte after it. -/
theorem witness_ResetAtParameters :
    other.glyphsComplete = true ∧
      got (commandAt other .reset (keyed [4] State.reset)) (fun t => (readByte t 0, readByte t 1, readByte t 79, readByte t 80)) =
        some (0x01, 0x90, 0x80, 0) ∧
      got (commandAt other .reset (keyed [4] State.reset)) (fun t => (reg t 0xF, t.i, t.pc, t.dt, t.keys)) =
        some (1, 2, 0x600, 3, [4]) := by decide

/-- The longest image that fits at the other load offset and the shortest that does not. -/
theorem witness_LoadAtParameters :
    (∃ image : List Byte, image.length = 2560 ∧ other.loadOffset.toNat + image.length ≤ 4096) ∧
      (∃ image : List Byte, image.length = 2561 ∧ 4096 < other.loadOffset.toNat + image.length) ∧
      got (commandAt other (.loadProgram [0x12, 0x34]) State.reset) (fun t => (readByte t 0x600, readByte t 0x601)) =
        some (0x12, 0x34) := by
  refine ⟨⟨List.replicate 2560 0, List.length_replicate, ?_⟩, ⟨List.replicate 2561 0, List.length_replicate, ?_⟩, by decide⟩ <;>
    rw [List.length_replicate] <;> decide

/-- A good state from which a command answers, at the defaults and at other values. -/
theorem witness_CommandKeepsInvariant :
    GoodState (keyed [3, 7] State.reset) ∧ other.wf = true ∧
      got (command (.press 3) (keyed [3, 7] State.reset)) (fun t => t.keys) = some [3, 7] ∧
      got (commandAt other .reset (keyed [3, 7] State.reset)) (fun t => (t.pc, t.mem)) = some (0x600, [(0, 0x01)]) :=
  ⟨⟨by decide, by decide, List.forall_mem_nil _, by decide⟩, by decide, by decide, by decide⟩

end Sys2Proof.Tests
end

section
/-! The fetch and the program load (spec/20_memory.md R52): what a fetch gives as a number, and what it reads after a load. -/

namespace Sys2Proof.Machine

/-- Each byte of a block that was stored reads back from its own address. -/
theorem readByte_writeBytes_add {bs : List Byte} {k : Nat} (hk : k < bs.length) (a : Nat) (s : State) :
    readByte (writeBytes a bs s) (a + k) = bs[k] := by
  rw [readByte_writeBytes, dif_pos ⟨by omega, by omega⟩]
  simp only [Nat.add_sub_cancel_left]

theorem imageFits_iff {c : Config} {image : List Byte} :
    imageFits c image = true ↔ c.loadOffset.toNat + image.length ≤ 4096 := decide_eq_true_iff

/-- At any `LOAD_OFFSET`, a fetch there after a load joins the first two bytes of the image. -/
theorem fetch_loadOffset_writeBytes {c : Config} {b0 b1 : Byte} {rest : List Byte}
    (hfit : imageFits c (b0 :: b1 :: rest) = true) (s : State) :
    fetch (jumpTo c.loadOffset (writeBytes c.loadOffset.toNat (b0 :: b1 :: rest) s)) = .ok (joinBytes b0 b1) := by
  have hlen : c.loadOffset.toNat + (rest.length + 2) ≤ 4096 := imageFits_iff.mp hfit
  have h0 : readByte (writeBytes c.loadOffset.toNat (b0 :: b1 :: rest) s) c.loadOffset.toNat = b0 :=
    readByte_writeBytes_add (k := 0) (by simp) _ s
  have h1 : readByte (writeBytes c.loadOffset.toNat (b0 :: b1 :: rest) s) (c.loadOffset.toNat + 1) = b1 :=
    readByte_writeBytes_add (k := 1) (by simp) _ s
  refine fetch_ok.mpr ⟨?_, ?_⟩
  · rw [jumpTo_pc]; omega
  · rw [jumpTo_pc, readByte_jumpTo, readByte_jumpTo, h0, h1]

/-- Settles O7: the fetched word is the join of two bytes, and a load leaves the image's first two at the load offset. -/
theorem fetchIsBigEndian : Obligations.FetchIsBigEndian := by
  unfold Obligations.FetchIsBigEndian
  constructor
  · intro s hpc
    exact ⟨_, fetch_ok.mpr ⟨hpc, rfl⟩, joinBytes_toNat _ _⟩
  · intro s b0 b1 rest hfit
    have hload : command (.loadProgram (b0 :: b1 :: rest)) s =
        .next (writeBytes params.loadOffset.toNat (b0 :: b1 :: rest) s) := loadImage_next.mpr ⟨hfit, rfl⟩
    exact ⟨_, _, hload, fetch_loadOffset_writeBytes hfit s, joinBytes_toNat b0 b1⟩

end Sys2Proof.Machine
end

section
/-! The decoder by levels (spec/30_encoding.md R74) against the map of R75: the top nibble leaves a part of the rows, and a second
level tests what these rows fix beside it. -/

namespace Sys2Proof

/-! ### The rows of a top nibble -/

/-- The rows of R75 that the first level of R74 leaves for the top nibble `p`. -/
def rowsOfOp (p : BitVec 4) : List (Operation × OpcodeRow) :=
  Machine.standardRows.filter fun r => fieldOp r.2.pattern == p

/-- The instruction of the first row of top nibble `p` that passes the test of a second level. -/
def secondLevel (p : BitVec 4) (test : OpcodeRow → Bool) (w : Opcode) : Option Instr :=
  ((rowsOfOp p).find? fun r => test r.2).map fun r => instrOf Machine.standardMap w r.1

/-- A word whose sub-opcode `k` is that of no row of its top nibble has no instruction (R77). -/
theorem secondLevel_eq_none {p : BitVec 4} {m : Nat} {subOpcode : Opcode → BitVec m} {k : BitVec m} {w : Opcode}
    (h : k ∉ (rowsOfOp p).map fun r => subOpcode r.2.pattern) :
    secondLevel p (fun r => k == subOpcode r.pattern) w = none := by
  rw [secondLevel, List.find?_eq_none.mpr, Option.map_none]
  intro r hr hk
  exact h (List.mem_map.mpr ⟨r, hr, (beq_iff_eq.mp hk).symm⟩)

theorem decodeBy_eq_map_find? (m : OpcodeMap) (w : Opcode) :
    decodeBy m w = (m.rows.find? fun r => r.2.selects w).map fun r => instrOf m w r.1 := by
  rw [decodeBy]
  cases m.rows.find? fun r => r.2.selects w <;> rfl

/-- Every row fixes all of `op`, so no word selects a row of another top nibble. -/
theorem fieldOp_pattern_of_selects {r : Operation × OpcodeRow} {w : Opcode} (hr : r ∈ Machine.standardRows)
    (hs : r.2.selects w = true) : fieldOp r.2.pattern = fieldOp w := by
  have hmask : ∀ r ∈ Machine.standardRows, fieldOp r.2.mask = BitVec.allOnes 4 := by decide
  calc fieldOp r.2.pattern = fieldOp (w &&& r.2.mask) := by rw [selects_iff.mp hs]
    _ = fieldOp w &&& fieldOp r.2.mask := BitVec.extractLsb'_and
    _ = fieldOp w := by rw [hmask r hr, BitVec.and_allOnes]

/-- The first level: the map's answer comes from the rows of the word's own top nibble. -/
theorem decodeWord_of_fieldOp {p : BitVec 4} {w : Opcode} (hop : fieldOp w = p) :
    decodeWord w = secondLevel p (fun r => r.selects w) w := by
  have hfind : (rowsOfOp p).find? (fun r => r.2.selects w) = Machine.standardRows.find? fun r => r.2.selects w := by
    rw [rowsOfOp, List.find?_filter]
    refine List.find?_congr fun r hr => ?_
    cases hs : r.2.selects w with
    | false => simp
    | true => simp [fieldOp_pattern_of_selects hr hs, hop]
  rw [secondLevel, hfind]
  exact decodeBy_eq_map_find? Machine.standardMap w

/-- Among the rows of the top nibble, selecting a row can be tested by what the row fixes beside `op`. -/
theorem decodeWord_of_test {p : BitVec 4} {test : OpcodeRow → Bool} {w : Opcode} (hop : fieldOp w = p)
    (htest : ∀ r ∈ rowsOfOp p, r.2.selects w = true ↔ test r.2 = true) : decodeWord w = secondLevel p test w := by
  rw [decodeWord_of_fieldOp hop, secondLevel, secondLevel, List.find?_congr fun r hr => Bool.eq_iff_iff.mpr (htest r hr)]

/-! ### What the rows of a top nibble fix beside it -/

/-- No second level: the one row of the top nibble fixes `op` alone. -/
theorem decodeWord_of_rowOp {p : BitVec 4} {w : Opcode} {o : Operation} (hop : fieldOp w = p)
    (hrow : rowsOfOp p = [(o, ⟨wordXYN p 0 0 0, 0xF000⟩)]) : decodeWord w = some (instrOf Machine.standardMap w o) := by
  have hs := (selects_op p w).mpr hop
  simp only [decodeWord_of_fieldOp hop, secondLevel, hrow, List.find?_cons, hs, Option.map_some]

/-- A second level on `n`. -/
theorem decodeWord_of_rowsOpN {p : BitVec 4} {w : Opcode} (hop : fieldOp w = p)
    (hrows : ∀ r ∈ rowsOfOp p, r.2 = ⟨wordXYN p 0 0 (fieldN r.2.pattern), 0xF00F⟩) :
    decodeWord w = secondLevel p (fun r => fieldN w == fieldN r.pattern) w := by
  refine decodeWord_of_test hop fun r hr => ?_
  have hs := selects_opN p (fieldN r.2.pattern) w
  rw [← hrows r hr] at hs
  rw [hs, beq_iff_eq, and_iff_right hop]

/-- A second level on `nn`. -/
theorem decodeWord_of_rowsOpNN {p : BitVec 4} {w : Opcode} (hop : fieldOp w = p)
    (hrows : ∀ r ∈ rowsOfOp p, r.2 = ⟨wordXNN p 0 (fieldNN r.2.pattern), 0xF0FF⟩) :
    decodeWord w = secondLevel p (fun r => fieldNN w == fieldNN r.pattern) w := by
  refine decodeWord_of_test hop fun r hr => ?_
  have hs := selects_opNN p (fieldNN r.2.pattern) w
  rw [← hrows r hr] at hs
  rw [hs, beq_iff_eq, and_iff_right hop]

/-- A second level on the whole opcode. -/
theorem decodeWord_of_rowsAll {p : BitVec 4} {w : Opcode} (hop : fieldOp w = p)
    (hrows : ∀ r ∈ rowsOfOp p, r.2 = ⟨r.2.pattern, 0xFFFF⟩) :
    decodeWord w = secondLevel p (fun r => w == r.pattern) w := by
  refine decodeWord_of_test hop fun r hr => ?_
  have hs := selects_all r.2.pattern w
  rw [← hrows r hr] at hs
  rw [hs, beq_iff_eq]

/-- A second level on `n` with a single row. -/
theorem decodeWord_of_rowOpN {p q : BitVec 4} {w : Opcode} {o : Operation} (hop : fieldOp w = p)
    (hrow : rowsOfOp p = [(o, ⟨wordXYN p 0 0 q, 0xF00F⟩)]) :
    decodeWord w = if fieldN w = q then some (instrOf Machine.standardMap w o) else none := by
  rw [decodeWord_of_rowsOpN hop (by simp [hrow]), secondLevel, hrow]
  by_cases hn : fieldN w = q <;> simp [hn]

/-! ### Each second level of R74 -/

theorem decodeFixed_eq_decodeWord {w : Opcode} (hop : fieldOp w = 0x0#4) : decodeFixed w = decodeWord w := by
  rw [decodeWord_of_rowsAll hop (by decide), decodeFixed]
  split_ifs with hcls hret
  · rw [hcls]; rfl
  · rw [hret]; rfl
  · have hsub : w ∉ [0x00E0#16, 0x00EE#16] := by simp [*]
    exact (secondLevel_eq_none (subOpcode := id) hsub).symm

theorem decodeAlu_eq_decodeWord {w : Opcode} (hop : fieldOp w = 0x8#4) : decodeAlu w = decodeWord w := by
  rw [decodeWord_of_rowsOpN hop (by decide), decodeAlu]
  split
  case h_10 =>
    have hsub : fieldN w ∉ [0x0#4, 0x1#4, 0x2#4, 0x3#4, 0x4#4, 0x5#4, 0x6#4, 0x7#4, 0xE#4] := by simp_all
    exact (secondLevel_eq_none hsub).symm
  all_goals
    rename_i hn
    rw [hn]
    rfl

theorem decodeKey_eq_decodeWord {w : Opcode} (hop : fieldOp w = 0xE#4) : decodeKey w = decodeWord w := by
  rw [decodeWord_of_rowsOpNN hop (by decide), decodeKey]
  split
  case h_3 =>
    have hsub : fieldNN w ∉ [0x9E#8, 0xA1#8] := by simp_all
    exact (secondLevel_eq_none hsub).symm
  all_goals
    rename_i hnn
    rw [hnn]
    rfl

theorem decodeMisc_eq_decodeWord {w : Opcode} (hop : fieldOp w = 0xF#4) : decodeMisc w = decodeWord w := by
  rw [decodeWord_of_rowsOpNN hop (by decide), decodeMisc]
  split
  case h_10 =>
    have hsub : fieldNN w ∉ [0x07#8, 0x0A#8, 0x15#8, 0x18#8, 0x1E#8, 0x29#8, 0x33#8, 0x55#8, 0x65#8] := by simp_all
    exact (secondLevel_eq_none hsub).symm
  all_goals
    rename_i hnn
    rw [hnn]
    rfl

/-- Settles O11, by the cases of the top nibble: each second level agrees with the rows of its nibble. -/
theorem levelsAgreeWithMap : Obligations.LevelsAgreeWithMap := by
  unfold Obligations.LevelsAgreeWithMap
  intro w
  unfold decodeLevels
  split
  case h_1 hop => exact decodeFixed_eq_decodeWord hop
  case h_6 hop => exact (decodeWord_of_rowOpN (o := .seReg) hop rfl).symm
  case h_9 hop => exact decodeAlu_eq_decodeWord hop
  case h_10 hop => exact (decodeWord_of_rowOpN (o := .sneReg) hop rfl).symm
  case h_15 hop => exact decodeKey_eq_decodeWord hop
  case h_16 hop => exact decodeMisc_eq_decodeWord hop
  case h_17 =>
    simp only [imp_false] at *
    bv_omega
  all_goals
    rename_i hop
    exact (decodeWord_of_rowOp hop rfl).symm

end Sys2Proof
end

section
/-! Control transfer (spec/40_control_transfer.md): what each of the four instructions answers, what it leaves unchanged, and the run
of a program that jumps to itself. -/

namespace Sys2Proof.Machine

/-! ### What the four instructions answer -/

theorem exec_ret_of_stack_cons {s : State} {a : Addr} {rest : List Addr} (h : s.stack = a :: rest) :
    exec .ret s = .next (jumpTo (a + 2) (setStack rest s)) := by
  simp [exec, execRet, pop, h]

theorem exec_ret_of_stack_nil {s : State} (h : s.stack = []) : exec .ret s = .fault .stackUnderflow := by
  simp [exec, execRet, pop, h, raise]

theorem exec_jp (nnn : BitVec 12) (s : State) : exec (.jp nnn) s = .next (jumpTo (zextAddr nnn) s) := rfl

theorem exec_call (nnn : BitVec 12) (s : State) :
    exec (.call nnn) s = .next (jumpTo (zextAddr nnn) (setStack (s.pc :: s.stack) s)) := rfl

theorem exec_jpV0 (nnn : BitVec 12) (s : State) : exec (.jpV0 nnn) s = .next (jumpTo (offsetTarget nnn s) s) := rfl

/-! ### What a jump and a change of the stack leave unchanged -/

theorem unchangedBut_jumpTo (a : Addr) (s : State) : unchangedBut [.pc] s (jumpTo a s) :=
  fun _ hp => sameAt_jumpTo (List.ne_of_not_mem_cons hp) a s

theorem unchangedBut_jumpTo_setStack (a : Addr) (as : List Addr) (s : State) :
    unchangedBut [.pc, .stack] s (jumpTo a (setStack as s)) := by
  intro p hp
  obtain ⟨hpc, hstack⟩ := List.ne_and_not_mem_of_not_mem_cons hp
  exact sameAt_trans (sameAt_setStack (List.ne_of_not_mem_cons hstack) as s) (sameAt_jumpTo hpc a _)

theorem jumpTo_own_pc (s : State) : jumpTo s.pc s = s := rfl

/-- A fetch from above 4094 faults with its first byte above 4095 (spec/20_memory.md R54). -/
theorem step_of_pc_above {s : State} (h : 4094 < s.pc.toNat) :
    step s = .fault (.addressOutOfRange (max s.pc.toNat 4096)) :=
  step_of_fetch_error (fetch_error.mpr ⟨h, rfl⟩)

/-! ### Calls, returns and jumps -/

/-- Settles O13: a return with an entry on the stack pops it and jumps 2 past it; with none it faults. -/
theorem returnResumesAfterCall : Obligations.ReturnResumesAfterCall := by
  unfold Obligations.ReturnResumesAfterCall
  intro s
  constructor
  · intro a rest h
    exact ⟨_, exec_ret_of_stack_cons h, BitVec.toNat_add a 2, rfl, unchangedBut_jumpTo_setStack _ _ s⟩
  · exact exec_ret_of_stack_nil

/-- Settles O14: the address is zero-extended, and a jump to the address that `pc` holds puts back what was there. -/
theorem jumpSetsPc : Obligations.JumpSetsPc := by
  unfold Obligations.JumpSetsPc
  intro nnn s
  refine ⟨_, exec_jp nnn s, zextAddr_toNat nnn, unchangedBut_jumpTo _ s, fun hpc => ?_⟩
  have hself : zextAddr nnn = s.pc := BitVec.eq_of_toNat_eq ((zextAddr_toNat nnn).trans hpc.symm)
  rw [hself, jumpTo_own_pc]

/-- Settles O15: at the default depth, `none`, the push always answers. -/
theorem callPushesOwnAddress : Obligations.CallPushesOwnAddress := by
  unfold Obligations.CallPushesOwnAddress
  intro nnn s
  exact ⟨_, exec_call nnn s, zextAddr_toNat nnn, rfl, unchangedBut_jumpTo_setStack _ _ s⟩

/-- Settles O17: the call leaves its own address on top of the caller's stack, and from there the return takes it (O13, O15). -/
theorem callThenReturn : Obligations.CallThenReturn := by
  unfold Obligations.CallThenReturn
  intro nnn s t u hcall hstack
  obtain ⟨t', hcall', -, hpushed, -⟩ := callPushesOwnAddress nnn s
  obtain rfl : t' = t := Host.Outcome.next.inj (hcall'.symm.trans hcall)
  obtain ⟨w, hret, hpc, hpopped, -⟩ := (returnResumesAfterCall u).1 s.pc s.stack (hstack.trans hpushed)
  exact ⟨w, hret, hpc, hpopped⟩

/-- Settles O18: the sum fits 16 bits, so `pc` holds it exactly, and the fetch there faults from 4095 on. -/
theorem jumpOffsetAddsV0 : Obligations.JumpOffsetAddsV0 := by
  unfold Obligations.JumpOffsetAddsV0
  intro nnn s
  have hpc : (jumpTo (offsetTarget nnn s) s).pc.toNat = nnn.toNat + (reg s 0).toNat := offsetTarget_toNat nnn s
  refine ⟨_, exec_jpV0 nnn s, hpc, unchangedBut_jumpTo _ s, fun habove => ?_⟩
  rw [← hpc] at habove ⊢
  exact step_of_pc_above habove

/-! ### A program at a jump to itself (spec/70_reset_and_hazards.md R214) -/

theorem decodeWord_encode_jp (nnn : BitVec 12) : decodeWord (encode (.jp nnn)) = some (.jp nnn) := by
  rw [decodeWord_of_rowOp (w := encode (.jp nnn)) (o := .jp) (fieldOp_wordNNN 1 nnn) rfl]
  exact congrArg (fun a => some (Instr.jp a)) (fieldNNN_wordNNN 1 nnn)

theorem step_of_selfLoop {s : State} (h : selfLoop s) : step s = .next s := by
  obtain ⟨nnn, hfetch, hself⟩ := h
  rw [step_of_fetch_decode hfetch (decodeWord_encode_jp nnn), exec_jp, hself, jumpTo_own_pc]

/-- A run of the host's machine stays at a state whose step answers that state. -/
theorem core_run_of_step_self {s : core.State} (h : core.step s = .next s) : ∀ n, Host.Core.run core n s = .next s
  | 0 => rfl
  | n + 1 => (core_run_succ n h).trans (core_run_of_step_self h n)

theorem afterCommand_of_next {c : Command} {s t : State} (h : command c s = .next t) : afterCommand c s = t := by
  simp only [afterCommand, h]

/-- A command that answers the same state may be repeated: the schedule stays there. -/
theorem runCommands_replicate_of_self {c : Command} {s : State} (h : command c s = .next s) :
    ∀ n, runCommands (List.replicate n c) s = s
  | 0 => rfl
  | n + 1 => by
    rw [List.replicate_succ, runCommands, afterCommand_of_next h]
    exact runCommands_replicate_of_self h n

/-- Settles O56: one step answers the same state, so by induction on their number do all of them. -/
theorem selfLoopStaysForEver : Obligations.SelfLoopStaysForEver := by
  unfold Obligations.SelfLoopStaysForEver
  intro n s h
  have hstep : command .step s = .next s := step_of_selfLoop h
  exact ⟨core_run_of_step_self hstep n, hstep, runCommands_replicate_of_self hstep n⟩

end Sys2Proof.Machine
end

section
/-! Conditional skips (spec/41_skips.md): what a skip answers under a condition that a comparison of bytes decides. -/

namespace Sys2Proof.Machine

/-! ### What the four comparing skips answer -/

theorem exec_seImm (x : Reg) (nn : Byte) (s : State) : exec (.seImm x nn) s = .next (skipIf (reg s x == nn) s) := rfl

theorem exec_sneImm (x : Reg) (nn : Byte) (s : State) : exec (.sneImm x nn) s = .next (skipIf (reg s x != nn) s) := rfl

theorem exec_seReg (x y : Reg) (s : State) : exec (.seReg x y) s = .next (skipIf (reg s x == reg s y) s) := rfl

theorem exec_sneReg (x y : Reg) (s : State) : exec (.sneReg x y) s = .next (skipIf (reg s x != reg s y) s) := rfl

/-! ### What a skip does -/

theorem unchangedBut_skipIf (c : Bool) (s : State) : unchangedBut [.pc] s (skipIf c s) :=
  fun _ hp => sameAt_skipIf (List.ne_of_not_mem_cons hp) c s

/-- The program counter after a skip whose test decides `P`, as a number (R114; the sum wraps by R24). -/
theorem skipIf_pc_toNat {c : Bool} {P : Prop} [Decidable P] (hc : c = true ↔ P) (s : State) :
    (skipIf c s).pc.toNat = (s.pc.toNat + if P then 4 else 2) % 65536 := by
  rw [skipIf_pc, BitVec.toNat_add]
  by_cases hP : P
  · rw [if_pos (hc.mpr hP), if_pos hP]; rfl
  · rw [if_neg (mt hc.mp hP), if_neg hP]; rfl

/-- What `SE` answers, whichever operand the byte `b` comes from. -/
theorem skipIf_beq_spec (a b : Byte) (s : State) :
    unchangedBut [.pc] s (skipIf (a == b) s) ∧
      (skipIf (a == b) s).pc.toNat = (s.pc.toNat + if a.toNat = b.toNat then 4 else 2) % 65536 :=
  ⟨unchangedBut_skipIf _ s, skipIf_pc_toNat (beq_iff_eq.trans BitVec.toNat_inj.symm) s⟩

/-- What `SNE` answers, whichever operand the byte `b` comes from. -/
theorem skipIf_bne_spec (a b : Byte) (s : State) :
    unchangedBut [.pc] s (skipIf (a != b) s) ∧
      (skipIf (a != b) s).pc.toNat = (s.pc.toNat + if a.toNat ≠ b.toNat then 4 else 2) % 65536 :=
  ⟨unchangedBut_skipIf _ s, skipIf_pc_toNat (bne_iff_ne.trans BitVec.toNat_ne_iff_ne.symm) s⟩

/-- Settles O19: the test on bytes is the comparison of their values, and a skip changes `pc` alone. -/
theorem skipOnImmediate : Obligations.SkipOnImmediate := by
  unfold Obligations.SkipOnImmediate
  intro x nn s
  exact ⟨⟨_, exec_seImm x nn s, skipIf_beq_spec _ nn s⟩, ⟨_, exec_sneImm x nn s, skipIf_bne_spec _ nn s⟩⟩

/-- Settles O20: as with an immediate, with the byte of the second register; x = y is no case apart. -/
theorem skipOnRegisters : Obligations.SkipOnRegisters := by
  unfold Obligations.SkipOnRegisters
  intro x y s
  exact ⟨⟨_, exec_seReg x y s, skipIf_beq_spec _ _ s⟩, ⟨_, exec_sneReg x y s, skipIf_bne_spec _ _ s⟩⟩

end Sys2Proof.Machine
end

section
/-! Register load and ALU (spec/42_load_alu.md): what the three shared shapes of the family answer, and each instruction as one of
them with its byte and its flag as numbers. -/

namespace Sys2Proof.Machine

/-! ### What the ten instructions answer -/

theorem exec_ldImm (x : Reg) (nn : Byte) (s : State) : exec (.ldImm x nn) s = writeReg x nn s := rfl

theorem exec_addImm (x : Reg) (nn : Byte) (s : State) : exec (.addImm x nn) s = writeReg x (reg s x + nn) s := rfl

theorem exec_ldReg (x y : Reg) (s : State) : exec (.ldReg x y) s = writeReg x (reg s y) s := rfl

theorem exec_orReg (x y : Reg) (s : State) : exec (.orReg x y) s = writeReg x (reg s x ||| reg s y) s := rfl

theorem exec_andReg (x y : Reg) (s : State) : exec (.andReg x y) s = writeReg x (reg s x &&& reg s y) s := rfl

theorem exec_xorReg (x y : Reg) (s : State) : exec (.xorReg x y) s = writeReg x (reg s x ^^^ reg s y) s := rfl

theorem exec_addReg (x y : Reg) (s : State) :
    exec (.addReg x y) s = writeRegThenFlag x (reg s x + reg s y) (carryFlag (reg s x) (reg s y)) s := rfl

theorem exec_subReg (x y : Reg) (s : State) :
    exec (.subReg x y) s = writeRegThenFlag x (reg s x - reg s y) (noBorrowFlag (reg s x) (reg s y)) s := rfl

theorem exec_subnReg (x y : Reg) (s : State) :
    exec (.subnReg x y) s = writeRegThenFlag x (reg s y - reg s x) (noBorrowFlag (reg s y) (reg s x)) s := rfl

theorem exec_shr (x y : Reg) (s : State) :
    exec (.shr x y) s = writeFlagThenShift x (shrFlag (reg s x)) (fun b => b >>> 1) s := rfl

/-! ### What a write to a listed place leaves unchanged -/

theorem unchangedBut_refl (written : List Place) (s : State) : unchangedBut written s s := fun p _ => sameAt_refl p s

theorem unchangedBut_setReg {written : List Place} {s t : State} {r : Reg} (hr : .reg r ∈ written) (h : unchangedBut written s t)
    (b : Byte) : unchangedBut written s (setReg r b t) :=
  fun p hp => sameAt_trans (h p hp) (sameAt_setReg (ne_of_mem_of_not_mem hr hp).symm b t)

theorem unchangedBut_advance {written : List Place} {s t : State} (hpc : .pc ∈ written) (h : unchangedBut written s t) :
    unchangedBut written s (advance t) :=
  fun p hp => sameAt_trans (h p hp) (sameAt_advance (ne_of_mem_of_not_mem hpc hp).symm t)

/-- The program counter after an instruction that is no branch (R130), as a number. -/
theorem advance_pc_toNat (s : State) : (advance s).pc.toNat = (s.pc.toNat + 2) % 65536 := BitVec.toNat_add s.pc 2

/-! ### The three shapes -/

theorem writeReg_spec (x : Reg) (b : Byte) (s : State) :
    ∃ t, writeReg x b s = .next t ∧ reg t x = b ∧ t.pc.toNat = (s.pc.toNat + 2) % 65536 ∧ unchangedBut [.pc, .reg x] s t := by
  refine ⟨_, rfl, reg_setReg_same x b s, advance_pc_toNat _, ?_⟩
  exact unchangedBut_advance (by simp) (unchangedBut_setReg (by simp) (unchangedBut_refl _ s) b)

/-- The flag is written last, so it is what `V[0xF]` holds for every x (R134). -/
theorem writeRegThenFlag_spec (x : Reg) (b flag : Byte) (s : State) :
    ∃ t, writeRegThenFlag x b flag s = .next t ∧ (x ≠ 0xF → reg t x = b) ∧ reg t 0xF = flag ∧
      t.pc.toNat = (s.pc.toNat + 2) % 65536 ∧ unchangedBut [.pc, .reg x, .reg 0xF] s t := by
  refine ⟨_, rfl, fun hx => ?_, reg_setReg_same flagReg flag _, advance_pc_toNat _, ?_⟩
  · exact (reg_setReg_of_ne hx flag _).trans (reg_setReg_same x b s)
  · have hx : unchangedBut [.pc, .reg x, .reg 0xF] s (setReg x b s) :=
      unchangedBut_setReg (by simp) (unchangedBut_refl _ s) b
    exact unchangedBut_advance (by simp) (unchangedBut_setReg (by simp [flagReg]) hx flag)

/-- The flag is written first, so with x = 0xF it is the flag that is shifted (R134). -/
theorem writeFlagThenShift_spec (x : Reg) (flag : Byte) (shift : Byte → Byte) (s : State) :
    ∃ t, writeFlagThenShift x flag shift s = .next t ∧ (x ≠ 0xF → reg t x = shift (reg s x) ∧ reg t 0xF = flag) ∧
      (x = 0xF → reg t 0xF = shift flag) ∧
      t.pc.toNat = (s.pc.toNat + 2) % 65536 ∧ unchangedBut [.pc, .reg x, .reg 0xF] s t := by
  refine ⟨_, rfl, fun hx => ⟨?_, ?_⟩, ?_, advance_pc_toNat _, ?_⟩
  · rw [reg_advance, reg_setReg_same]
    exact congrArg shift (reg_setReg_of_ne hx flag s)
  · rw [reg_advance, reg_setReg_of_ne (Ne.symm hx)]
    exact reg_setReg_same flagReg flag s
  · rintro rfl
    rw [reg_advance, reg_setReg_same]
    exact congrArg shift (reg_setReg_same flagReg flag s)
  · have hflag : unchangedBut [.pc, .reg x, .reg 0xF] s (setReg flagReg flag s) :=
      unchangedBut_setReg (by simp [flagReg]) (unchangedBut_refl _ s) flag
    exact unchangedBut_advance (by simp) (unchangedBut_setReg (by simp) hflag _)

/-! ### Loads and operations without a flag -/

/-- Settles O22: both loads are the one write, of the immediate or of the old `V[y]`. -/
theorem loadWritesRegister : Obligations.LoadWritesRegister := by
  unfold Obligations.LoadWritesRegister
  intro x y nn s
  rw [exec_ldImm, exec_ldReg]
  exact ⟨writeReg_spec x nn s, writeReg_spec x (reg s y) s⟩

/-- Settles O23: the byte written is the sum of two bytes, which wraps. -/
theorem addImmediateWraps : Obligations.AddImmediateWraps := by
  unfold Obligations.AddImmediateWraps
  intro x nn s
  obtain ⟨t, ht, hsum, hrest⟩ := writeReg_spec x (reg s x + nn) s
  exact ⟨t, (exec_addImm x nn s).trans ht, by rw [hsum, BitVec.toNat_add], hrest⟩

/-- Settles O24: the byte written is the operation on the two bytes, which acts on each bit. -/
theorem logicBitByBit : Obligations.LogicBitByBit := by
  unfold Obligations.LogicBitByBit
  intro x y s
  rw [exec_orReg, exec_andReg, exec_xorReg]
  refine ⟨?_, ?_, ?_⟩
  · obtain ⟨t, ht, hor, hrest⟩ := writeReg_spec x (reg s x ||| reg s y) s
    exact ⟨t, ht, fun k _ => by rw [hor, BitVec.getLsbD_or], hrest⟩
  · obtain ⟨t, ht, hand, hrest⟩ := writeReg_spec x (reg s x &&& reg s y) s
    exact ⟨t, ht, fun k _ => by rw [hand, BitVec.getLsbD_and], hrest⟩
  · obtain ⟨t, ht, hxor, hrest⟩ := writeReg_spec x (reg s x ^^^ reg s y) s
    exact ⟨t, ht, fun k _ => by rw [hxor, BitVec.getLsbD_xor], hrest⟩

/-! ### Operations with a flag -/

/-- Settles O25: the flag, the carry of the two old bytes, is written after the sum. -/
theorem addRegistersSetsCarry : Obligations.AddRegistersSetsCarry := by
  unfold Obligations.AddRegistersSetsCarry
  intro x y s
  obtain ⟨t, ht, hsum, hflag, hrest⟩ :=
    writeRegThenFlag_spec x (reg s x + reg s y) (carryFlag (reg s x) (reg s y)) s
  exact ⟨t, (exec_addReg x y s).trans ht, fun hx => by rw [hsum hx, BitVec.toNat_add],
    by rw [hflag, carryFlag_toNat], hrest⟩

/-- The difference of two bytes is the remainder modulo 256 of their difference as integers. -/
theorem sub_toNat_int (a b : Byte) : ((a - b).toNat : Int) = ((a.toNat : Int) - b.toNat) % 256 := by
  have ha := a.isLt
  have hb := b.isLt
  rw [BitVec.toNat_sub]
  omega

/-- What `SUB` and `SUBN` answer, whichever operand the minuend `a` and the subtrahend `b` come from. -/
theorem writeDifferenceThenNoBorrow_spec (x : Reg) (a b : Byte) (s : State) :
    ∃ t, writeRegThenFlag x (a - b) (noBorrowFlag a b) s = .next t ∧
      (x ≠ 0xF → ((reg t x).toNat : Int) = ((a.toNat : Int) - b.toNat) % 256) ∧
      (reg t 0xF).toNat = (if b.toNat ≤ a.toNat then 1 else 0) ∧
      t.pc.toNat = (s.pc.toNat + 2) % 65536 ∧ unchangedBut [.pc, .reg x, .reg 0xF] s t := by
  obtain ⟨t, ht, hdiff, hflag, hrest⟩ := writeRegThenFlag_spec x (a - b) (noBorrowFlag a b) s
  exact ⟨t, ht, fun hx => by rw [hdiff hx, sub_toNat_int], by rw [hflag, noBorrowFlag_toNat], hrest⟩

/-- Settles O26: the two instructions differ in which operand is the minuend. -/
theorem subtractSetsNoBorrow : Obligations.SubtractSetsNoBorrow := by
  unfold Obligations.SubtractSetsNoBorrow
  intro x y s
  rw [exec_subReg, exec_subnReg]
  exact ⟨writeDifferenceThenNoBorrow_spec x (reg s x) (reg s y) s, writeDifferenceThenNoBorrow_spec x (reg s y) (reg s x) s⟩

theorem ushiftRight_one_toNat (b : Byte) : (b >>> 1).toNat = b.toNat / 2 := by
  rw [BitVec.toNat_ushiftRight, Nat.shiftRight_one]

/-- The bit that `SHR` shifts out is 0 or 1, so a second shift leaves nothing of it. -/
theorem shrFlag_ushiftRight_one (a : Byte) : shrFlag a >>> 1 = 0 := by
  apply BitVec.eq_of_toNat_eq
  rw [ushiftRight_one_toNat, shrFlag_toNat]
  exact Nat.div_eq_of_lt (Nat.mod_lt _ Nat.two_pos)

/-- Settles O27: for x = 0xF the flag, at most 1, is itself shifted and leaves 0. -/
theorem shiftRightByOne : Obligations.ShiftRightByOne := by
  unfold Obligations.ShiftRightByOne
  intro x y s
  obtain ⟨t, ht, hother, hsame, hrest⟩ := writeFlagThenShift_spec x (shrFlag (reg s x)) (fun b => b >>> 1) s
  refine ⟨t, (exec_shr x y s).trans ht, fun hx => ?_, fun hx => ?_, hrest⟩
  · obtain ⟨hhalf, hflag⟩ := hother hx
    exact ⟨by rw [hhalf, ushiftRight_one_toNat], by rw [hflag, shrFlag_toNat]⟩
  · exact (hsame hx).trans (shrFlag_ushiftRight_one (reg s x))

end Sys2Proof.Machine
end

section
/-! Address register and memory (spec/43_index_memory.md): what `LD I` answers, what the two transfers of a run of registers answer
on both sides of address 4095, and the fetch of bytes that a store has put in memory. -/

namespace Sys2Proof.Machine

/-! ### What the three instructions answer -/

theorem exec_ldI (nnn : BitVec 12) (s : State) : exec (.ldI nnn) s = .next (advance (setIndex (zextAddr nnn) s)) := rfl

theorem exec_storeRegs (x : Reg) (s : State) : exec (.storeRegs x) s = storeAtIndex (regsUpTo s x) s := rfl

theorem exec_loadRegs_of_memRead_ok {x : Reg} {s : State} {bs : List Byte}
    (h : memRead s (indexBase s) (x.toNat + 1) = .ok bs) : exec (.loadRegs x) s = .next (advance (setRegsFrom 0 bs s)) := by
  simp [exec, execLoadRegs, h]

theorem exec_loadRegs_of_memRead_error {x : Reg} {s : State} {f : Fault}
    (h : memRead s (indexBase s) (x.toNat + 1) = .error f) : exec (.loadRegs x) s = .fault f := by
  simp [exec, execLoadRegs, h, raise]

/-! ### The address register -/

theorem sameAt_setIndex {p : Place} (h : p ≠ .index) (a : Addr) (s : State) : sameAt p s (setIndex a s) := by
  cases p with
  | index => exact absurd rfl h
  | _ => rfl

theorem unchangedBut_setIndex {written : List Place} {s t : State} (hi : .index ∈ written) (h : unchangedBut written s t)
    (a : Addr) : unchangedBut written s (setIndex a t) :=
  fun p hp => sameAt_trans (h p hp) (sameAt_setIndex (ne_of_mem_of_not_mem hi hp).symm a t)

/-- Settles O30: the address, zero-extended, is a number below 65536, and `pc` and `I` alone are written. -/
theorem loadIndexAddress : Obligations.LoadIndexAddress := by
  unfold Obligations.LoadIndexAddress
  intro nnn s
  refine ⟨_, exec_ldI nnn s, zextAddr_toNat nnn, advance_pc_toNat _, ?_⟩
  exact unchangedBut_advance (by simp) (unchangedBut_setIndex (by simp) (unchangedBut_refl _ s) _)

/-! ### Storing a run of registers (R144) -/

/-- A store that reaches above 4095 faults with its first address there (spec/20_memory.md R54). -/
theorem storeAtIndex_of_above {bs : List Byte} {s : State} (hne : bs.length ≠ 0) (h : memSize < indexBase s + bs.length) :
    storeAtIndex bs s = .fault (.addressOutOfRange (max (indexBase s) memSize)) := by
  simp only [storeAtIndex, memWrite_error.mpr ⟨⟨hne, h⟩, rfl⟩, raise]

theorem exec_storeRegs_next {x : Reg} {s t : State} :
    exec (.storeRegs x) s = .next t ↔
      indexBase s + x.toNat ≤ 4095 ∧ t = advance (writeBytes (indexBase s) (regsUpTo s x) s) := by
  have hrange : regsUpTo s x = [] ∨ indexBase s + (regsUpTo s x).length ≤ memSize ↔ indexBase s + x.toNat ≤ 4095 := by
    rw [← List.length_eq_zero_iff, length_regsUpTo, memSize]
    omega
  rw [exec_storeRegs, storeAtIndex_next, hrange]

/-- The k-th byte of the stored run is `V[k]`. -/
theorem readByte_writeBytes_regsUpTo {x : Reg} {k : Nat} (hk : k ≤ x.toNat) (a : Nat) (s t : State) :
    readByte (writeBytes a (regsUpTo s x) t) (a + k) = reg s (BitVec.ofNat 4 k) := by
  have hin : a ≤ a + k ∧ a + k < a + (regsUpTo s x).length := by
    rw [length_regsUpTo]
    omega
  rw [readByte_writeBytes, dif_pos hin, getElem_regsUpTo, Nat.add_sub_cancel_left]

/-- Settles O33: the checked store of `x + 1` bytes from `I`, each of them the register of its offset. -/
theorem storeRegistersAtIndex : Obligations.StoreRegistersAtIndex := by
  unfold Obligations.StoreRegistersAtIndex
  intro x s
  constructor
  · intro hin
    refine ⟨_, exec_storeRegs_next.mpr ⟨hin, rfl⟩, fun r hr => ?_, ?_, fun p hpc hbyte => ?_⟩
    · rw [readByte_advance, readByte_writeBytes_regsUpTo hr, BitVec.ofNat_toNat, BitVec.setWidth_eq]
    · rw [advance_pc_toNat, writeBytes_eq]
    · have hstored : ∀ k, k < (regsUpTo s x).length → p ≠ .byte (indexBase s + k) := fun k hk =>
        hbyte k (Nat.lt_succ_iff.mp (hk.trans_eq (length_regsUpTo s x)))
      exact sameAt_trans (sameAt_writeBytes hstored s) (sameAt_advance hpc _)
  · intro hout
    have hlen := length_regsUpTo s x
    exact storeAtIndex_of_above (by omega) (by rw [memSize]; omega)

/-! ### Loading a run of registers (R145) -/

/-- A read in range answers as many bytes as asked for, each from its own address. -/
theorem memRead_of_le {s : State} {a len : Nat} (h : a + len ≤ memSize) :
    ∃ bs, memRead s a len = .ok bs ∧ bs.length = len ∧ ∀ k (hk : k < bs.length), bs[k] = readByte s (a + k) :=
  ⟨_, memRead_ok.mpr ⟨.inr h, rfl⟩, by simp, by simp⟩

/-- Settles O34: the checked read of `x + 1` bytes from `I`, each of them into the register of its offset. -/
theorem loadRegistersFromIndex : Obligations.LoadRegistersFromIndex := by
  unfold Obligations.LoadRegistersFromIndex
  intro x s
  constructor
  · intro hin
    obtain ⟨bs, hread, hlen, hbytes⟩ := memRead_of_le (s := s) (a := indexBase s) (len := x.toNat + 1) (by rw [memSize]; omega)
    have hfit : 0 + bs.length ≤ 16 := by
      have hx := x.isLt
      omega
    refine ⟨_, exec_loadRegs_of_memRead_ok hread, fun r hr => ?_, ?_, fun p hpc hreg => ?_⟩
    · have hloaded : 0 ≤ r.toNat ∧ r.toNat < 0 + bs.length := by omega
      rw [reg_advance, reg_setRegsFrom bs 0 s r hfit, dif_pos hloaded, hbytes, Nat.sub_zero]
    · rw [advance_pc_toNat, setRegsFrom_eq]
    · have hloaded : ∀ r : Reg, 0 ≤ r.toNat → r.toNat < 0 + bs.length → p ≠ .reg r := fun r _ hr => hreg r (by omega)
      exact sameAt_trans (sameAt_setRegsFrom hfit hloaded s) (sameAt_advance hpc _)
  · intro hout
    exact exec_loadRegs_of_memRead_error (memRead_error.mpr ⟨⟨Nat.succ_ne_zero _, by rw [memSize]; omega⟩, rfl⟩)

/-! ### One memory for code and data (spec/20_memory.md R64) -/

/-- The bytes of a state are those of its memory. -/
theorem readByte_eq_of_mem {s t : State} (h : s.mem = t.mem) (a : Nat) : readByte s a = readByte t a := by
  rw [readByte, h, readByte]

/-- Settles O35: both bytes of the fetch lie in the run that the store wrote. -/
theorem storeIsSeenByFetch : Obligations.StoreIsSeenByFetch := by
  unfold Obligations.StoreIsSeenByFetch
  intro x s t u k hstore hmem hk hpc
  obtain ⟨hin, rfl⟩ := exec_storeRegs_next.mp hstore
  have hbyte : ∀ j, j ≤ x.toNat → readByte u (indexBase s + j) = reg s (BitVec.ofNat 4 j) := fun j hj =>
    (readByte_eq_of_mem hmem _).trans (readByte_writeBytes_regsUpTo hj _ s s)
  rw [fetch_ok, hpc, Nat.add_assoc, hbyte k (by omega), hbyte (k + 1) hk]
  exact ⟨by omega, rfl⟩

end Sys2Proof.Machine
end

section
/-! Delay timer (spec/45_keyboard_timers.md): its read is a register write of the register load shape, its write is a state
operation with a frame of its own. -/

namespace Sys2Proof.Machine

theorem exec_ldVxDt (x : Reg) (s : State) : exec (.ldVxDt x) s = writeReg x s.dt s := rfl

theorem exec_ldDt (x : Reg) (s : State) : exec (.ldDt x) s = .next (advance (setDelay (reg s x) s)) := rfl

theorem sameAt_setDelay {p : Place} (h : p ≠ .delay) (b : Byte) (s : State) : sameAt p s (setDelay b s) := by
  cases p with
  | delay => exact absurd rfl h
  | _ => rfl

theorem unchangedBut_setDelay {written : List Place} {s t : State} (hd : .delay ∈ written) (h : unchangedBut written s t)
    (b : Byte) : unchangedBut written s (setDelay b t) :=
  fun p hp => sameAt_trans (h p hp) (sameAt_setDelay (ne_of_mem_of_not_mem hd hp).symm b t)

/-- Settles O39: the read is the one register write, of `DT`, and leaves `DT` by that write's frame; the write is `setDelay`
before the advance. -/
theorem delayTimerMoves : Obligations.DelayTimerMoves := by
  unfold Obligations.DelayTimerMoves
  intro x s
  constructor
  · rw [exec_ldVxDt]
    exact writeReg_spec x s.dt s
  · refine ⟨_, exec_ldDt x s, setDelay_dt (reg s x) s, advance_pc_toNat _, ?_⟩
    exact unchangedBut_advance (by simp) (unchangedBut_setDelay (by simp) (unchangedBut_refl _ s) _)

end Sys2Proof.Machine
end

section
/-! Exceptions and the timers' clock (spec/60_exceptions.md): the raise at a word of no row, and one tick. -/

namespace Sys2Proof.Machine

/-! ### A word that selects no row (R170, R176) -/

/-- A word without an instruction is a word that selects no row of the table (spec/30_encoding.md R77). -/
theorem decodeWord_none {w : Opcode} : decodeWord w = none ↔ ∀ r ∈ opcodeRows, r.selects w = false := by
  rw [decodeWord, decodeBy_none, opcodeRows, List.forall_mem_map]

/-- A command that raises leaves the state as it was (R176). -/
theorem afterCommand_of_fault {c : Command} {s : State} {f : Fault} (h : command c s = .fault f) : afterCommand c s = s := by
  rw [afterCommand, h]

/-- Settles O5: such a word decodes to nothing, so the step raises at decode, and a command that raises changes nothing. -/
theorem undefinedOpcodeRaises : Obligations.UndefinedOpcodeRaises := by
  unfold Obligations.UndefinedOpcodeRaises
  intro s w hfetch hrows
  have hraise : command .step s = .fault (.invalidOpcode w) := step_of_decode_none hfetch (decodeWord_none.mpr hrows)
  exact ⟨hraise, afterCommand_of_fault hraise⟩

/-! ### One tick (R185) -/

theorem command_tick (s : State) : command .tick s = .next (tickTimers s) := rfl

theorem tickTimers_sounding_iff {s : State} : (tickTimers s).sounding = true ↔ 0 < s.st.toNat := by
  rw [tickTimers_sounding, decide_eq_true_iff, Nat.pos_iff_ne_zero]
  exact not_congr BitVec.toNat_eq

theorem sameAt_tickTimers {p : Place} (hd : p ≠ .delay) (hs : p ≠ .speaker) (hf : p ≠ .sounding) (s : State) :
    sameAt p s (tickTimers s) := by
  cases p with
  | delay => exact absurd rfl hd
  | speaker => exact absurd rfl hs
  | sounding => exact absurd rfl hf
  | _ => rfl

theorem unchangedBut_tickTimers (s : State) : unchangedBut [.delay, .speaker, .sounding] s (tickTimers s) := by
  intro p hp
  simp only [List.mem_cons, List.not_mem_nil, or_false, not_or] at hp
  obtain ⟨hd, hs, hf⟩ := hp
  exact sameAt_tickTimers hd hs hf s

/-- Settles O42: both counters are counted down by `tickDown`, a subtraction that stops at 0, and the tick writes only them and
`sounding`. -/
theorem tickCountsDown : Obligations.TickCountsDown := by
  unfold Obligations.TickCountsDown
  intro s
  exact ⟨_, command_tick s, tickDown_toNat s.dt, tickDown_toNat s.st, tickTimers_sounding_iff, unchangedBut_tickTimers s⟩

end Sys2Proof.Machine
end

section
/-! Loading a program (spec/70_reset_and_hazards.md R202, R203): the two answers of the load at any `LOAD_OFFSET`. -/

namespace Sys2Proof.Machine

theorem loadImageAt_of_le {c : Config} {image : List Byte} (hfit : c.loadOffset.toNat + image.length ≤ 4096) (s : State) :
    loadImageAt c image s = .next (writeBytes c.loadOffset.toNat image s) :=
  loadImageAt_next.mpr ⟨imageFits_iff.mpr hfit, rfl⟩

theorem loadImageAt_of_lt {c : Config} {image : List Byte} (hlong : 4096 < c.loadOffset.toNat + image.length) (s : State) :
    loadImageAt c image s = .refused (.outOfBounds image.length) := by
  have hfit : ¬ imageFits c image = true := fun h => absurd (imageFits_iff.mp h) (Nat.not_le.mpr hlong)
  rw [loadImageAt, if_neg hfit]

/-- A command that is refused leaves the state as it was (R203). -/
theorem afterCommand_of_refused {d : Command} {s : State} {r : Refusal} (h : command d s = .refused r) : afterCommand d s = s := by
  rw [afterCommand, h]

/-- Settles O45: an image that fits is one `writeBytes`, which reads back byte by byte and has its own frame; a longer one is
refused, and a refused command changes nothing. -/
theorem loadProgramCopies : Obligations.LoadProgramCopies := by
  unfold Obligations.LoadProgramCopies
  intro image s
  constructor
  · intro hfit
    exact ⟨_, loadImageAt_of_le hfit s, fun _ hk => readByte_writeBytes_add hk _ s, fun _ hp => sameAt_writeBytes hp s⟩
  · intro hlong
    have hrefused : command (.loadProgram image) s = .refused (.outOfBounds image.length) := loadImageAt_of_lt hlong s
    exact ⟨hrefused, afterCommand_of_refused hrefused⟩

end Sys2Proof.Machine
end

section
/-! Decoding and encoding (spec/30_encoding.md R71 to R79): each undoes the other, and both follow the rows of R75; and what a
step does with the word it fetched. -/

namespace Sys2Proof
open Machine

/-! ### Decoding an encoded instruction -/

/-- The levels of R74 read back each format: the first level its `op`, the second what the format puts below it. -/
theorem decodeLevels_encode (i : Instr) : decodeLevels (encode i) = some i := by
  cases i with
  | cls | ret => rfl
  | jp | call | ldI | jpV0 => simp [encode, decodeLevels]
  | seImm | sneImm | ldImm | addImm | rnd => simp [encode, decodeLevels]
  | seReg | sneReg | drw => simp [encode, decodeLevels]
  | ldReg | orReg | andReg | xorReg | addReg | subReg | shr | subnReg | shl => simp [encode, decodeLevels, decodeAlu]
  | skp | sknp => simp [encode, decodeLevels, decodeKey]
  | ldVxDt | ldVxK | ldDt | ldSt | addI | ldF | ldB | storeRegs | loadRegs => simp [encode, decodeLevels, decodeMisc]

theorem decodeWord_encode (i : Instr) : decodeWord (encode i) = some i :=
  (levelsAgreeWithMap (encode i)).symm.trans (decodeLevels_encode i)

/-- Settles O8: the two bytes join to the encoded word, which the levels of R74 read back (O11). -/
theorem decodeOfEncode : Obligations.DecodeOfEncode := by
  unfold Obligations.DecodeOfEncode
  intro i rest
  exact decode_ok.mpr ⟨_, _, rfl, by rw [joinBytes_splitBytes, decodeWord_encode]⟩

/-- Settles O12: six of the words are encodings (O8), and the last selects no row. -/
theorem specWordsDecode : Obligations.SpecWordsDecode := by
  unfold Obligations.SpecWordsDecode
  exact ⟨decodeWord_encode (.call 0x30A), decodeWord_encode (.seImm 0xA 0x42), decodeWord_encode (.addReg 0 1),
    decodeWord_encode (.ldB 0), decodeWord_encode (.drw 0 1 5), decodeWord_encode (.sknp 0), decodeWord_none.mpr (by decide)⟩

/-! ### Encoding a decoded word -/

theorem wordNNN_of_selects {p : BitVec 4} {w : Opcode} (h : (OpcodeRow.mk (wordXYN p 0 0 0) 0xF000).selects w = true) :
    wordNNN p (fieldNNN w) = w := by
  rw [← (selects_op p w).mp h, wordNNN_fields]

theorem wordXNN_of_selects {p : BitVec 4} {w : Opcode} (h : (OpcodeRow.mk (wordXYN p 0 0 0) 0xF000).selects w = true) :
    wordXNN p (fieldX w) (fieldNN w) = w := by
  rw [← (selects_op p w).mp h, wordXNN_fields]

theorem wordXYN_of_selects {p : BitVec 4} {w : Opcode} (h : (OpcodeRow.mk (wordXYN p 0 0 0) 0xF000).selects w = true) :
    wordXYN p (fieldX w) (fieldY w) (fieldN w) = w := by
  rw [← (selects_op p w).mp h, wordXYN_fields]

theorem wordXYN_of_selects_opN {p q : BitVec 4} {w : Opcode}
    (h : (OpcodeRow.mk (wordXYN p 0 0 q) 0xF00F).selects w = true) : wordXYN p (fieldX w) (fieldY w) q = w := by
  obtain ⟨rfl, rfl⟩ := (selects_opN p q w).mp h
  exact wordXYN_fields w

theorem wordXNN_of_selects_opNN {p : BitVec 4} {q : Byte} {w : Opcode}
    (h : (OpcodeRow.mk (wordXNN p 0 q) 0xF0FF).selects w = true) : wordXNN p (fieldX w) q = w := by
  obtain ⟨rfl, rfl⟩ := (selects_opNN p q w).mp h
  exact wordXNN_fields w

/-- A word that selects the row of an operation is its fixed bits and its operand fields, so the encoding gives it back. -/
theorem encode_instrOf {w : Opcode} {o : Operation} (h : (rowOf (instrOf standardMap w o)).selects w = true) :
    encode (instrOf standardMap w o) = w := by
  cases o with
  | cls | ret => exact ((selects_all _ w).mp h).symm
  | jp | call | ldI | jpV0 => exact wordNNN_of_selects h
  | seImm | sneImm | ldImm | addImm | rnd => exact wordXNN_of_selects h
  | drw => exact wordXYN_of_selects h
  | seReg | sneReg | ldReg | orReg | andReg | xorReg | addReg | subReg | shr | subnReg | shl =>
    exact wordXYN_of_selects_opN h
  | skp | sknp | ldVxDt | ldVxK | ldDt | ldSt | addI | ldF | ldB | storeRegs | loadRegs => exact wordXNN_of_selects_opNN h

/-- The row of an instruction is that of its operation, whatever its operands. -/
theorem rowOf_instrOf {r : Operation × OpcodeRow} (hr : r ∈ standardRows) (m : OpcodeMap) (w : Opcode) :
    rowOf (instrOf m w r.1) = r.2 := by
  have hrows : ∀ r ∈ standardRows, rowOf (instrOf standardMap 0 r.1) = r.2 := by decide
  rw [← hrows r hr]
  cases r.1 <;> rfl

/-- What a word decodes to is of a row of the table that the word selects. -/
theorem rowOf_of_decodeWord {w : Opcode} {i : Instr} (h : decodeWord w = some i) :
    rowOf i ∈ opcodeRows ∧ (rowOf i).selects w = true ∧ encode i = w := by
  obtain ⟨r, hr, hs, rfl⟩ := decodeBy_some h
  have hrow : rowOf (instrOf standardMap w r.1) = r.2 := rowOf_instrOf hr standardMap w
  exact ⟨hrow ▸ List.mem_map_of_mem hr, hrow ▸ hs, encode_instrOf (hrow ▸ hs)⟩

/-- Settles O9: the word selects the row of the instruction, so it is that row's bits and the operand fields. -/
theorem encodeOfDecode : Obligations.EncodeOfDecode := by
  unfold Obligations.EncodeOfDecode
  intro w i h
  obtain ⟨-, -, henc⟩ := rowOf_of_decodeWord h
  exact henc

/-! ### The rows are disjoint -/

/-- Two rows that one word selects agree on the bits that both fix, and no two different rows of R75 do. -/
theorem standardRows_disjoint {w : Opcode} {r q : Operation × OpcodeRow} (hr : r ∈ standardRows) (hq : q ∈ standardRows)
    (hrs : r.2.selects w = true) (hqs : q.2.selects w = true) : r = q := by
  have hagree : r.2.pattern &&& q.2.mask = q.2.pattern &&& r.2.mask := by
    rw [← selects_iff.mp hrs, ← selects_iff.mp hqs, BitVec.and_assoc, BitVec.and_assoc, BitVec.and_comm r.2.mask]
  have hrows : ∀ r ∈ standardRows, ∀ q ∈ standardRows, r.2.pattern &&& q.2.mask = q.2.pattern &&& r.2.mask → r = q := by
    decide
  exact hrows r hr q hq hagree

/-- Settles O10: the decoder takes the first row that the word selects, and the rows are disjoint. -/
theorem decodeFollowsOpcodeTable : Obligations.DecodeFollowsOpcodeTable := by
  unfold Obligations.DecodeFollowsOpcodeTable
  refine ⟨fun w i h => ?_, fun w _ hrow hs => ?_, fun w _ hrow _ hrow' hrs hqs => ?_⟩
  · obtain ⟨hrow, hsel, -⟩ := rowOf_of_decodeWord h
    exact ⟨hrow, hsel⟩
  · obtain ⟨r, hr, rfl⟩ := List.mem_map.mp hrow
    have hdec := decodeBy_of_selects (m := standardMap) hr hs fun q hq hqs => standardRows_disjoint hq hr hqs hs
    exact ⟨_, hdec, rowOf_instrOf hr standardMap w⟩
  · obtain ⟨r, hr, rfl⟩ := List.mem_map.mp hrow
    obtain ⟨q, hq, rfl⟩ := List.mem_map.mp hrow'
    exact congrArg Prod.snd (standardRows_disjoint hr hq hrs hqs)

/-! ### The step around the decoder (R79) -/

/-- Settles O4: the fetch of two bytes in memory answers their join, which decodes. -/
theorem stepRunsDecodedInstruction : Obligations.StepRunsDecodedInstruction := by
  unfold Obligations.StepRunsDecodedInstruction
  intro s i hpc hdec
  exact step_of_fetch_decode (fetch_ok.mpr ⟨hpc, rfl⟩) hdec

/-- Settles O6: the fetch faults before anything is decoded. -/
theorem fetchAboveMemoryRaises : Obligations.FetchAboveMemoryRaises := by
  unfold Obligations.FetchAboveMemoryRaises
  intro s hpc
  exact step_of_pc_above hpc

end Sys2Proof
end

section
/-! The commands other than `step` (spec/10_state.md R40): reset at any parameters, the load, key events, `ackDisplay`, a run of
ticks; and the machine with parameters at the spec's defaults. -/

namespace Sys2Proof.Machine

/-! ### The defaults (spec/00_scope.md R6) -/

/-- The five instructions with a parameter take its default, and every other one is `exec` itself. -/
theorem execAt_params (i : Instr) (s : State) : execAt params i s = exec i s := by
  cases i <;> rfl

theorem stepAt_params (s : State) : stepAt params s = step s := by
  have hexec : execAt params = exec := funext₂ execAt_params
  rw [stepAt, hexec]
  rfl

theorem commandAt_params (d : Command) (s : State) : commandAt params d s = command d s := by
  cases d with
  | step => exact stepAt_params s
  | reset => exact congrArg (fun r => Host.Outcome.next (resetTo r s)) State.resetAt_params
  | tick | loadProgram | press | release | ackDisplay => rfl

/-- Settles O57: instruction by instruction, then for the step and for each command. -/
theorem defaultsAreTheMachine : Obligations.DefaultsAreTheMachine := by
  unfold Obligations.DefaultsAreTheMachine
  exact ⟨execAt_params, stepAt_params, commandAt_params⟩

/-! ### Reset (spec/70_reset_and_hazards.md R200) -/

/-- The listed cells and the reset bytes behind them read as the table the cells were made from. -/
theorem read_cellsWhereDiffer {bs : List Byte} (hlen : bs.length = params.glyphTable.length) (a : Nat) :
    Memory.read (cellsWhereDiffer 0 bs params.glyphTable) a = bs.getD a 0 := by
  by_cases hlisted : ∃ c ∈ cellsWhereDiffer 0 bs params.glyphTable, c.1 = a
  · obtain ⟨c, hc, rfl⟩ := hlisted
    rw [read_of_listed (cellsWhereDiffer_sorted bs 0 _) hc]
    obtain ⟨k, hk, -, -, rfl⟩ := (mem_cellsWhereDiffer bs 0 _).mp hc
    simp [hk]
  · push Not at hlisted
    rw [read_of_not_listed hlisted, resetByte]
    by_cases ha : a < bs.length
    · have hg : a < params.glyphTable.length := hlen ▸ ha
      have heq : bs[a] = params.glyphTable[a] := by
        by_contra hne
        exact hlisted (a, bs[a]) ((mem_cellsWhereDiffer bs 0 _).mpr ⟨a, ha, hg, hne, by rw [Nat.zero_add]⟩) rfl
      rw [List.getD_eq_getElem _ _ ha, List.getD_eq_getElem _ _ hg, heq]
    · rw [List.getD_eq_default _ _ (by omega), List.getD_eq_default _ _ (by omega)]

theorem readByte_resetAt {c : Config} (hc : c.glyphsComplete = true) (a : Nat) :
    readByte (State.resetAt c) a = c.glyphTable.getD a 0 :=
  read_cellsWhereDiffer (of_decide_eq_true hc) a

theorem reg_resetAt (c : Config) (r : Reg) : reg (State.resetAt c) r = c.resetV := by
  rw [reg, resetAt_v, Vector.getElem_replicate]

theorem pixel_resetAt (c : Config) (px : Col) (py : Row) : pixel (State.resetAt c) px py = false := by
  simp [pixel, blankDisplay]

/-- Settles O58: the answer is the state at construction under the parameters with the old keyboard; its memory reads as the glyph
table, which has no byte from 80 on. -/
theorem resetAtParameters : Obligations.ResetAtParameters := by
  unfold Obligations.ResetAtParameters
  intro c hc s
  have hlen : c.glyphTable.length = 80 := of_decide_eq_true hc
  refine ⟨resetTo (State.resetAt c) s, rfl, reg_resetAt c, rfl, rfl, rfl, rfl, rfl, rfl, ?_, ?_, pixel_resetAt c, rfl, rfl⟩
  · intro a _
    exact readByte_resetAt hc a
  · intro a ha
    exact (readByte_resetAt hc a).trans (List.getD_eq_default _ _ (hlen ▸ ha))

/-- Settles O2: it is O58 at the defaults (O57). -/
theorem resetCommandKeepsKeyboard : Obligations.ResetCommandKeepsKeyboard := by
  unfold Obligations.ResetCommandKeepsKeyboard
  intro s
  rw [← commandAt_params]
  exact resetAtParameters params rfl s

/-- Settles O1: a reset from the state at construction answers that state, so every field is what O2 says. -/
theorem resetStateFields : Obligations.ResetStateFields := by
  unfold Obligations.ResetStateFields
  obtain ⟨t, ht, hv, hi, hpc, hrest⟩ := resetCommandKeepsKeyboard State.reset
  obtain rfl : State.reset = t := Host.Outcome.next.inj ht
  exact ⟨hv, hi, congrArg BitVec.toNat hpc, hrest⟩

/-! ### Loading (R202, R203) -/

/-- Settles O59: an image that fits is one `writeBytes` from the load offset, and a longer one is refused. -/
theorem loadAtParameters : Obligations.LoadAtParameters := by
  unfold Obligations.LoadAtParameters
  intro c image s
  constructor
  · intro hfit
    exact ⟨_, loadImageAt_of_le hfit s, fun _ hk => readByte_writeBytes_add hk _ s, fun _ hp => sameAt_writeBytes hp s⟩
  · intro hlong
    exact loadImageAt_of_lt hlong s

/-! ### Key events and `ackDisplay` (spec/10_state.md R32, R43) -/

theorem unchangedBut_keys (ks : List Key) (s : State) : unchangedBut [.keys] s { s with keys := ks } := by
  intro p hp
  cases p with
  | keys => exact absurd List.mem_cons_self hp
  | _ => rfl

theorem unchangedBut_ackDisplay (s : State) : unchangedBut [.dirty] s (ackDisplay s) := by
  intro p hp
  cases p with
  | dirty => exact absurd List.mem_cons_self hp
  | _ => rfl

/-- Settles O44: `press` is an insertion at the end unless the key is there, `release` a filter, which keeps the order. -/
theorem pressAndRelease : Obligations.PressAndRelease := by
  unfold Obligations.PressAndRelease
  intro k s
  constructor
  · exact ⟨pressKey k s, rfl, fun hk => if_pos hk, fun hk => if_neg hk, unchangedBut_keys _ s⟩
  · refine ⟨releaseKey k s, rfl, ?_, List.filter_sublist, fun j hj => ?_, unchangedBut_keys _ s⟩
    · simp
    · simp [hj]

/-- Settles O46: `ackDisplay` writes `dirty` alone, and of the observation that is the field `dirty`. -/
theorem ackDisplayClearsDirty : Obligations.AckDisplayClearsDirty := by
  unfold Obligations.AckDisplayClearsDirty
  intro s
  exact ⟨ackDisplay s, rfl, rfl, unchangedBut_ackDisplay s⟩

/-! ### A run of ticks (spec/60_exceptions.md R185) -/

theorem runCommands_replicate_tick_succ (n : Nat) (s : State) :
    runCommands (List.replicate (n + 1) .tick) s = runCommands (List.replicate n .tick) (tickTimers s) := rfl

/-- Settles O43, by induction on the number of ticks: the first lowers both counters by one, and it is the last to set `sounding`
only if no other follows. -/
theorem soundingLastsCountdownTicks : Obligations.SoundingLastsCountdownTicks := by
  unfold Obligations.SoundingLastsCountdownTicks
  intro n
  induction n with
  | zero => intro s; simp [runCommands]
  | succ n ih =>
    intro s
    obtain ⟨hdt, hst, hsounding⟩ := ih (tickTimers s)
    rw [tickTimers_dt, tickDown_toNat] at hdt
    rw [tickTimers_st, tickDown_toNat] at hst hsounding
    rw [runCommands_replicate_tick_succ]
    refine ⟨by omega, by omega, fun _ => ?_⟩
    rcases n.eq_zero_or_pos with rfl | hn
    · exact tickTimers_sounding_iff
    · rw [hsounding hn]
      omega

end Sys2Proof.Machine
end

section
/-! Calls at a finite depth (spec/60_exceptions.md R173), and skips on a key (spec/45_keyboard_timers.md R160, R161). -/

namespace Sys2Proof.Machine

/-! ### Calls at a finite depth (spec/60_exceptions.md R173) -/

theorem callAtDepth_of_full {n : Nat} {s : State} (h : n ≤ s.stack.length) (nnn : BitVec 12) :
    callAtDepth (some n) nnn s = .fault .stackOverflow := by
  simp [callAtDepth, push, h, raise]

theorem callAtDepth_of_room {n : Nat} {s : State} (h : s.stack.length < n) (nnn : BitVec 12) :
    callAtDepth (some n) nnn s = callAtDepth none nnn s := by
  simp [callAtDepth, push, Nat.not_le.mpr h]

/-- Settles O16: the depth of this hardware is none, and a finite one is looked at by the push alone. -/
theorem callAtFiniteDepth : Obligations.CallAtFiniteDepth := by
  unfold Obligations.CallAtFiniteDepth
  exact ⟨fun _ _ => rfl, fun _ nnn _ => ⟨fun h => callAtDepth_of_full h nnn, fun h => callAtDepth_of_room h nnn⟩⟩

/-! ### Skips on a key (spec/45_keyboard_timers.md R160, R161) -/

theorem exec_skp (x : Reg) (s : State) : exec (.skp x) s = .next (skipIf (keyPressed s (reg s x)) s) := rfl

theorem exec_sknp (x : Reg) (s : State) : exec (.sknp x) s = .next (skipIf (!keyPressed s (reg s x)) s) := rfl

theorem keyPressed_iff_toNat (s : State) (b : Byte) : keyPressed s b = true ↔ ∃ k ∈ s.keys, k.toNat = b.toNat := by
  simp only [keyPressed_iff, ← BitVec.toNat_inj, keyByte_toNat]

/-- The program counter after a skip whose test decides `P`, one clause for each answer (R114). -/
theorem skipIf_pc_cases {c : Bool} {P : Prop} (hc : c = true ↔ P) (s : State) :
    (P → (skipIf c s).pc.toNat = (s.pc.toNat + 4) % 65536) ∧ (¬ P → (skipIf c s).pc.toNat = (s.pc.toNat + 2) % 65536) := by
  have hpc := skipIf_pc_toNat (c := c) Iff.rfl s
  exact ⟨fun hP => by rw [hpc, if_pos (hc.mpr hP)], fun hP => by rw [hpc, if_neg (mt hc.mp hP)]⟩

/-- Settles O21: the test is whether a pressed key has the code, and `SKNP` negates it. -/
theorem skipOnKey : Obligations.SkipOnKey := by
  unfold Obligations.SkipOnKey
  intro x s
  have hkey := keyPressed_iff_toNat s (reg s x)
  constructor
  · exact ⟨_, exec_skp x s, unchangedBut_skipIf _ s, skipIf_pc_cases hkey s⟩
  · have hnokey : (!keyPressed s (reg s x)) = true ↔ ¬ ∃ k ∈ s.keys, k.toNat = (reg s x).toNat := by
      rw [← hkey, Bool.not_eq_true', Bool.not_eq_true]
    obtain ⟨hskip, hstay⟩ := skipIf_pc_cases hnokey s
    exact ⟨_, exec_sknp x s, unchangedBut_skipIf _ s, hskip, fun hk => hstay (not_not_intro hk)⟩

end Sys2Proof.Machine
end

section
/-! The left shift and the free byte (spec/42_load_alu.md R131, R132). -/

namespace Sys2Proof.Machine

/-! ### The left shift (spec/42_load_alu.md R131) -/

theorem shiftLeft_one_toNat (b : Byte) : (b <<< 1).toNat = b.toNat * 2 % 256 := by
  rw [BitVec.toNat_shiftLeft, Nat.shiftLeft_eq]

theorem exec_shl (x y : Reg) (s : State) :
    exec (.shl x y) s = writeFlagThenShift x (shlFlagByte .fullByte (reg s x)) (fun b => b <<< 1) s := rfl

/-- Settles O28: the flag is the quirk's byte of the old `V[x]`, and for x = 0xF it is itself shifted. -/
theorem shiftLeftByOne : Obligations.ShiftLeftByOne := by
  unfold Obligations.ShiftLeftByOne
  refine ⟨fun _ _ _ => rfl, fun q x s => ?_⟩
  obtain ⟨t, ht, hother, hsame, hrest⟩ := writeFlagThenShift_spec x (shlFlagByte q (reg s x)) (fun b => b <<< 1) s
  refine ⟨t, ht, fun hx => ?_, fun hx hq => ?_, fun hx hq => ?_, fun hx hq => ?_, fun hx hq => ?_, hrest⟩
  · rw [(hother hx).1, shiftLeft_one_toNat]
  · rw [(hother hx).2, hq, shlFlagByte_fullByte]
  · rw [(hother hx).2, hq, shlFlagByte_msb_toNat]
  · rw [hsame hx, hq, shlFlagByte_fullByte, shiftLeft_one_toNat, hx]
  · have hlt := (reg s 0xF).isLt
    rw [hsame hx, hq, shiftLeft_one_toNat, shlFlagByte_msb_toNat, hx]
    omega

/-! ### The free byte (R132) -/

theorem exec_rnd (x : Reg) (nn : Byte) (s : State) :
    exec (.rnd x nn) s = .next (advance (setReg x (draw8 s &&& nn) (countDraw s))) := rfl

theorem unchangedBut_countDraw {written : List Place} (hd : .draws ∈ written) (s : State) :
    unchangedBut written s (countDraw s) := by
  intro p hp
  cases p with
  | draws => exact absurd hd hp
  | _ => rfl

/-- Settles O29: the byte written is the free byte and the mask, and the counter goes up by one. -/
theorem randomUnderMask : Obligations.RandomUnderMask := by
  unfold Obligations.RandomUnderMask
  intro x nn s
  have hx : reg (advance (setReg x (draw8 s &&& nn) (countDraw s))) x = draw8 s &&& nn := reg_setReg_same x _ _
  refine ⟨_, exec_rnd x nn s, hx, fun k hk => ?_, rfl, advance_pc_toNat _, ?_⟩
  · rw [hx, BitVec.getLsbD_and, hk, Bool.and_false]
  · exact unchangedBut_advance (by simp) (unchangedBut_setReg (by simp) (unchangedBut_countDraw (by simp) s) _)

end Sys2Proof.Machine
end

section
/-! Arithmetic on `I` and the decimal digits (spec/43_index_memory.md R141 to R143). -/

namespace Sys2Proof.Machine

/-! ### The address register (spec/43_index_memory.md R141, R142) -/

theorem exec_addI (x : Reg) (s : State) : exec (.addI x) s = .next (advance (setIndex (s.i + zextByte (reg s x)) s)) := rfl

theorem exec_ldF (x : Reg) (s : State) : exec (.ldF x) s = .next (advance (setIndex (glyphAddress (reg s x)) s)) := rfl

/-- A write of `I` and the advance write `I` and `pc` alone. -/
theorem unchangedBut_advance_setIndex (a : Addr) (s : State) : unchangedBut [.pc, .index] s (advance (setIndex a s)) :=
  unchangedBut_advance (by simp) (unchangedBut_setIndex (by simp) (unchangedBut_refl _ s) a)

/-- Settles O31: the sum of two 16-bit values wraps; five times a byte fits. -/
theorem indexArithmetic : Obligations.IndexArithmetic := by
  unfold Obligations.IndexArithmetic
  intro x s
  constructor
  · refine ⟨_, exec_addI x s, ?_, advance_pc_toNat _, unchangedBut_advance_setIndex _ s⟩
    rw [advance_i, setIndex_i, BitVec.toNat_add, zextByte_toNat]
  · exact ⟨_, exec_ldF x s, glyphAddress_toNat _, advance_pc_toNat _, unchangedBut_advance_setIndex _ s⟩

/-! ### Decimal digits (spec/43_index_memory.md R143) -/

/-- Three stores to the one address `I`: the last one stays. -/
theorem storeDigitsAtOne_of_lt {s : State} (h : indexBase s < memSize) (b : Byte) :
    storeDigitsAtOne b s = .next (advance (writeByte (indexBase s) (units b)
      (writeByte (indexBase s) (tens b) (writeByte (indexBase s) (hundreds b) s)))) := by
  have hstore : ∀ (d : Byte) (u : State), memWrite (indexBase s) [d] u = .ok (writeByte (indexBase s) d u) := fun _ _ =>
    memWrite_ok.mpr ⟨.inr h, rfl⟩
  simp only [storeDigitsAtOne, hstore]
  exact storeAtIndex_next.mpr ⟨.inr h, rfl⟩

theorem storeDigitsAtOne_of_le {s : State} (h : memSize ≤ indexBase s) (b : Byte) :
    storeDigitsAtOne b s = .fault (.addressOutOfRange (max (indexBase s) memSize)) := by
  have hfault : memWrite (indexBase s) [hundreds b] s = .error (.addressOutOfRange (max (indexBase s) memSize)) :=
    memWrite_error.mpr ⟨⟨Nat.one_ne_zero, Nat.lt_succ_of_le h⟩, rfl⟩
  simp only [storeDigitsAtOne, hfault, raise]

theorem unchangedBut_writeByte {written : List Place} {a : Nat} {s t : State} (ha : .byte a ∈ written)
    (h : unchangedBut written s t) (b : Byte) : unchangedBut written s (writeByte a b t) := by
  intro p hp
  refine sameAt_trans (h p hp) ?_
  cases p with
  | byte c => exact readByte_writeByte_of_ne (fun e => ne_of_mem_of_not_mem ha hp (congrArg Place.byte e.symm)) b t
  | _ => rfl

/-- Settles O32: at one address the units digit is stored last; at three each digit has its own; the range check comes first. -/
theorem decimalDigitsStored : Obligations.DecimalDigitsStored := by
  unfold Obligations.DecimalDigitsStored
  refine ⟨fun _ _ => rfl, fun b s hin => ?_, fun b s hin => ?_, fun b s hout => ?_, fun b s hout => ?_⟩
  · refine ⟨_, storeDigitsAtOne_of_lt (Nat.lt_succ_of_le hin) b, ?_, advance_pc_toNat _, ?_⟩
    · rw [readByte_advance, readByte_writeByte_same, units_toNat]
    · have hdigits : unchangedBut [.pc, .byte (indexBase s)] s
          (writeByte (indexBase s) (tens b) (writeByte (indexBase s) (hundreds b) s)) :=
        unchangedBut_writeByte (by simp) (unchangedBut_writeByte (by simp) (unchangedBut_refl _ s) _) _
      exact unchangedBut_advance (by simp) (unchangedBut_writeByte (by simp) hdigits _)
  · have hanswer : storeDigits .threeAddress b s =
        .next (advance (writeBytes (indexBase s) [hundreds b, tens b, units b] s)) :=
      storeAtIndex_next.mpr ⟨.inr (Nat.succ_le_succ hin), rfl⟩
    have hdigit : ∀ k (hk : k < 3), readByte (writeBytes (indexBase s) [hundreds b, tens b, units b] s) (indexBase s + k) =
        [hundreds b, tens b, units b][k] := fun k hk => readByte_writeBytes_add hk _ s
    refine ⟨_, hanswer, ?_, ?_, ?_, ?_, ?_⟩
    · exact (congrArg BitVec.toNat (hdigit 0 (by decide))).trans (hundreds_toNat b)
    · exact (congrArg BitVec.toNat (hdigit 1 (by decide))).trans (tens_toNat b)
    · exact (congrArg BitVec.toNat (hdigit 2 (by decide))).trans (units_toNat b)
    · rw [advance_pc_toNat, writeBytes_eq]
    · refine unchangedBut_advance (by simp) ?_
      exact unchangedBut_writeByte (by simp) (unchangedBut_writeByte (by simp)
        (unchangedBut_writeByte (by simp) (unchangedBut_refl _ s) _) _) _
  · have hmax : max (indexBase s) memSize = indexBase s := Nat.max_eq_left hout
    rw [← hmax]
    exact storeDigitsAtOne_of_le hout b
  · exact storeAtIndex_of_above (bs := [hundreds b, tens b, units b]) (by simp) (Nat.succ_lt_succ hout)

end Sys2Proof.Machine
end

section
/-! The speaker countdown and the wait for a key (spec/45_keyboard_timers.md R163, R165). -/

namespace Sys2Proof.Machine

theorem exec_ldSt (x : Reg) (s : State) : exec (.ldSt x) s = .next (advance (setSpeaker (reg s x) s)) := rfl

theorem unchangedBut_setSpeaker {written : List Place} (hst : .speaker ∈ written) (b : Byte) (s : State) :
    unchangedBut written s (setSpeaker b s) := by
  intro p hp
  cases p with
  | speaker => exact absurd hst hp
  | _ => rfl

/-- Settles O40: `setSpeaker` writes `ST` alone, so `sounding` waits for the next tick. -/
theorem speakerCountdownSet : Obligations.SpeakerCountdownSet := by
  unfold Obligations.SpeakerCountdownSet
  intro x s
  refine ⟨_, exec_ldSt x s, rfl, rfl, advance_pc_toNat _, ?_⟩
  exact unchangedBut_advance (by simp) (unchangedBut_setSpeaker (by simp) _ s)

theorem exec_ldVxK_of_no_key {s : State} (h : s.keys = []) (x : Reg) : exec (.ldVxK x) s = .next s := by
  simp [exec, execLdVxK, waitForKey, lastKey, h]

theorem exec_ldVxK_of_last_key {s : State} {older : List Key} {k : Key} (h : s.keys = older ++ [k]) (x : Reg) :
    exec (.ldVxK x) s = writeReg x (keyByte k) s := by
  simp [exec, execLdVxK, waitForKey, lastKey, h, writeReg]

/-- Settles O41, whose lowerCamelCase name is the model's own: the last key of the list is the one inserted most recently. -/
theorem waitForKeyTakesLast : Obligations.WaitForKey := by
  unfold Obligations.WaitForKey
  intro x s
  refine ⟨fun h => exec_ldVxK_of_no_key h x, fun older k h => ?_⟩
  obtain ⟨t, ht, hx, hrest⟩ := writeReg_spec x (keyByte k) s
  exact ⟨t, (exec_ldVxK_of_last_key h x).trans ht, by rw [hx, keyByte_toNat], hrest⟩

end Sys2Proof.Machine
end

section
/-! The display (spec/44_display.md R150 to R152): the clear; the cells that the loops of a draw flip are those that the sprite
toggles, said from the cell; what a draw does to each of them; and a second draw of the same sprite. -/

namespace Sys2Proof.Machine

/-! ### The clear -/

theorem exec_cls (s : State) : exec .cls s = .next (advance (clearDisplay s)) := rfl

theorem sameAt_clearDisplay {p : Place} (hd : p ≠ .dirty) (hc : ∀ px py, p ≠ .cell px py) (s : State) :
    sameAt p s (clearDisplay s) := by
  cases p with
  | dirty => exact absurd rfl hd
  | cell px py => exact absurd rfl (hc px py)
  | _ => rfl

/-- Settles O36: the clear writes every cell and `dirty`, with no look at what they held. -/
theorem clearDisplayBlanks : Obligations.ClearDisplayBlanks := by
  unfold Obligations.ClearDisplayBlanks
  intro s
  refine ⟨_, exec_cls s, fun px py => pixel_clearDisplay px py s, rfl, advance_pc_toNat _, fun p hpc hd hc => ?_⟩
  exact sameAt_trans (sameAt_clearDisplay hd hc s) (sameAt_advance hpc _)

/-! ### What a draw answers -/

/-- An answer is unique: what holds of some answer holds of the one at hand. -/
theorem of_next {r : Result} {P : State → Prop} (h : ∃ t, r = .next t ∧ P t) {t : State} (ht : r = .next t) : P t := by
  obtain ⟨t', ht', hP⟩ := h
  obtain rfl : t' = t := Host.Outcome.next.inj (ht'.symm.trans ht)
  exact hP

theorem exec_drw_of_memRead_ok {n : BitVec 4} {s : State} {bytes : List Byte}
    (h : memRead s (indexBase s) n.toNat = .ok bytes) (x y : Reg) :
    exec (.drw x y n) s = drawSprite params.drawEdge (reg s x) (reg s y) bytes s := by
  simp only [exec, execDrw, drawAtIndex, h]

theorem exec_drw_of_memRead_error {n : BitVec 4} {s : State} {f : Fault}
    (h : memRead s (indexBase s) n.toNat = .error f) (x y : Reg) : exec (.drw x y n) s = .fault f := by
  simp only [exec, execDrw, drawAtIndex, h, raise]

/-- A draw that answers has its whole sprite in memory. -/
theorem exec_drw_in_range {x y : Reg} {n : BitVec 4} {s t : State} (h : exec (.drw x y n) s = .next t) :
    n.toNat = 0 ∨ indexBase s + n.toNat - 1 ≤ 4095 := by
  obtain ⟨_, hread, -⟩ := execDrw_next h
  obtain ⟨hrange, -⟩ := memRead_ok.mp hread
  rw [memSize] at hrange
  omega

/-! ### The cells of the sprite -/

/-- The cells flipped by the loops of R151 are those that the sprite toggles: the one column and row of the sprite that fall on a
cell are its distance from `(V[x], V[y])` around the edges. -/
theorem mem_spriteCells_iff_spriteToggles {n : BitVec 4} {s : State} {bytes : List Byte}
    (hread : memRead s (indexBase s) n.toNat = .ok bytes) (e : DrawEdge) (x y : Reg) (px : Col) (py : Row) :
    (px, py) ∈ spriteCells e (reg s x).toNat (reg s y).toNat 0 bytes ↔ spriteToggles x y n s px py = true := by
  obtain ⟨-, rfl⟩ := memRead_ok.mp hread
  have hpx := px.isLt
  have hpy := py.isLt
  have hn := n.isLt
  simp only [mem_spriteCells, spriteToggles, spriteBit, Bool.and_eq_true, decide_eq_true_eq, List.length_map, List.length_range,
    List.getElem_map, List.getElem_range]
  constructor
  · rintro ⟨k, hk, col, hcol, hbit, hx, hy⟩
    have hcol' : (px.val + 64 - (reg s x).toNat % 64) % 64 = col := by omega
    have hrow : (py.val + 32 - (reg s y).toNat % 32) % 32 = k := by omega
    rw [hcol', hrow]
    exact ⟨⟨hcol, hk⟩, hbit⟩
  · rintro ⟨⟨hcol, hrow⟩, hbit⟩
    exact ⟨_, hrow, _, hcol, hbit, by omega, by omega⟩

theorem spriteCells_nodup_of_memRead {n : BitVec 4} {s : State} {bytes : List Byte}
    (hread : memRead s (indexBase s) n.toNat = .ok bytes) (e : DrawEdge) (vx vy : Nat) : (spriteCells e vx vy 0 bytes).Nodup := by
  obtain ⟨-, rfl⟩ := memRead_ok.mp hread
  refine spriteCells_nodup _ 0 ?_
  have hn := n.isLt
  rw [List.length_map, List.length_range]
  omega

/-! ### One draw -/

/-- What the flips of a draw do, in the terms of `spriteToggles`: to each cell, to the erasure flag and to `dirty`. -/
theorem flipCells_sprite {n : BitVec 4} {s : State} {bytes : List Byte}
    (hread : memRead s (indexBase s) n.toNat = .ok bytes) (e : DrawEdge) (x y : Reg) :
    let drawn := flipCells (spriteCells e (reg s x).toNat (reg s y).toNat 0 bytes) false s
    (∀ px py, pixel drawn.1 px py = (pixel s px py ^^ spriteToggles x y n s px py)) ∧
    (drawn.2 = true ↔ ∃ px py, spriteToggles x y n s px py = true ∧ pixel s px py = true) ∧
    (drawn.1.dirty = true ↔ s.dirty = true ∨ ∃ px py, spriteToggles x y n s px py = true) := by
  have hmem := mem_spriteCells_iff_spriteToggles hread e x y
  have hnodup := spriteCells_nodup_of_memRead hread e (reg s x).toNat (reg s y).toNat
  refine ⟨fun px py => ?_, ?_, ?_⟩
  · have hdec : decide ((px, py) ∈ spriteCells e (reg s x).toNat (reg s y).toNat 0 bytes) = spriteToggles x y n s px py := by
      rw [Bool.eq_iff_iff, decide_eq_true_iff, hmem]
    rw [flipCells_pixel _ _ _ hnodup, hdec]
  · simp only [flipCells_hit _ _ _ hnodup, Bool.false_or, List.any_eq_true, Prod.exists, hmem]
  · simp only [flipCells_dirty, Bool.or_eq_true, Bool.not_eq_true', List.isEmpty_eq_false_iff_exists_mem, Prod.exists, hmem]

theorem reg_flag_advance_setReg (flag : Byte) (s : State) : reg (advance (setReg flagReg flag s)) 0xF = flag :=
  reg_setReg_same flagReg flag s

/-- Settles O37: the sprite is read or faults; the flips toggle its cells; the flag, then `pc`, are written last. -/
theorem drawSpriteByXor : Obligations.DrawSpriteByXor := by
  unfold Obligations.DrawSpriteByXor
  intro x y n s
  constructor
  · intro hin
    have hrange : n.toNat = 0 ∨ indexBase s + n.toNat ≤ memSize := by rw [memSize]; omega
    have hread := (memRead_ok (s := s)).mpr ⟨hrange, rfl⟩
    obtain ⟨hpixel, hhit, hdirty⟩ := flipCells_sprite hread params.drawEdge x y
    refine ⟨_, exec_drw_of_memRead_ok hread x y, hpixel, ?_, ?_, hdirty, ?_, fun p hpc hf hd hc => ?_⟩
    · rw [reg_flag_advance_setReg]
      cases (flipCells _ false s).2 <;> simp [flagByte]
    · rw [reg_flag_advance_setReg, flagByte_eq_one, hhit]
    · rw [advance_pc_toNat, setReg_pc, flipCells_eq]
    · exact sameAt_trans (sameAt_flipCells hd hc _ _ s) (sameAt_trans (sameAt_setReg hf _ _) (sameAt_advance hpc _))
  · intro hn hout
    exact exec_drw_of_memRead_error (memRead_error.mpr ⟨⟨hn, by rw [memSize]; omega⟩, rfl⟩) x y

/-! ### A second draw -/

/-- Which cells a sprite toggles depends on the position, `I` and the bytes of the sprite alone. -/
theorem spriteToggles_congr {x y : Reg} {n : BitVec 4} {s u : State} (hx : reg u x = reg s x) (hy : reg u y = reg s y)
    (hi : indexBase u = indexBase s) (hbytes : ∀ k, k < n.toNat → readByte u (indexBase s + k) = readByte s (indexBase s + k))
    (px : Col) (py : Row) : spriteToggles x y n u px py = spriteToggles x y n s px py := by
  simp only [spriteToggles, hx, hy, hi]
  by_cases hrow : (py.val + 32 - (reg s y).toNat % 32) % 32 < n.toNat
  · rw [hbytes _ hrow]
  · simp [hrow]

/-- Settles O38: each draw (O37) toggles the same cells, so the second undoes the first; a cell that it finds lit among them was
dark before. -/
theorem drawTwiceRestores : Obligations.DrawTwiceRestores := by
  unfold Obligations.DrawTwiceRestores
  intro x y n s t u w hfirst hdisplay hx hy hi hbytes hsecond
  obtain ⟨hpixel, -⟩ := of_next ((drawSpriteByXor x y n s).1 (exec_drw_in_range hfirst)) hfirst
  obtain ⟨hpixel', -, hflag', -⟩ := of_next ((drawSpriteByXor x y n u).1 (exec_drw_in_range hsecond)) hsecond
  have htoggles := spriteToggles_congr hx hy (congrArg BitVec.toNat hi) hbytes
  have hbetween : ∀ px py, pixel u px py = (pixel s px py ^^ spriteToggles x y n s px py) := fun px py => by
    rw [← hpixel px py, pixel, hdisplay, pixel]
  constructor
  · refine display_ext fun px py => ?_
    rw [hpixel', htoggles, hbetween, Bool.xor_assoc, Bool.xor_self, Bool.xor_false]
  · rw [hflag']
    refine exists_congr fun px => exists_congr fun py => ?_
    rw [htoggles, hbetween]
    exact and_congr_right fun htoggled => by rw [htoggled, Bool.xor_true, Bool.not_eq_true']

end Sys2Proof.Machine
end

section
/-! What every instruction leaves unchanged (spec/10_state.md R22, R35) and when it raises (spec/60_exceptions.md R174), and what
follows for a step. -/

namespace Sys2Proof.Machine

/-! ### The frame of every instruction -/

/-- A frame by a list of places that the instruction may write. -/
theorem frame_of_unchangedBut {written : List Place} {i : Instr} {s t : State} (h : unchangedBut written s t)
    (hw : ∀ q ∈ written, mayWrite i s q) : ∀ p, ¬ mayWrite i s p → sameAt p s t :=
  fun p hp => h p fun hq => hp (hw p hq)

theorem unchangedBut_of_writeReg {x : Reg} {b : Byte} {s t : State} (h : writeReg x b s = .next t) :
    unchangedBut [.pc, .reg x] s t := by
  obtain ⟨-, -, hframe⟩ := of_next (writeReg_spec x b s) h
  exact hframe

theorem unchangedBut_of_writeRegThenFlag {x : Reg} {b flag : Byte} {s t : State} (h : writeRegThenFlag x b flag s = .next t) :
    unchangedBut [.pc, .reg x, .reg 0xF] s t := by
  obtain ⟨-, -, -, hframe⟩ := of_next (writeRegThenFlag_spec x b flag s) h
  exact hframe

theorem unchangedBut_of_writeFlagThenShift {x : Reg} {flag : Byte} {shift : Byte → Byte} {s t : State}
    (h : writeFlagThenShift x flag shift s = .next t) : unchangedBut [.pc, .reg x, .reg 0xF] s t := by
  obtain ⟨-, -, -, hframe⟩ := of_next (writeFlagThenShift_spec x flag shift s) h
  exact hframe

theorem unchangedBut_of_waitForKey {e : KeyTiebreak} {x : Reg} {s t : State} (h : waitForKey e x s = .next t) :
    unchangedBut [.pc, .reg x] s t := by
  obtain ⟨k, -, rfl⟩ | ⟨-, rfl⟩ := waitForKey_next h
  · exact unchangedBut_of_writeReg (b := keyByte k) rfl
  · exact unchangedBut_refl _ t

theorem unchangedBut_of_ret {s t : State} (h : exec .ret s = .next t) : unchangedBut [.pc, .stack] s t := by
  cases hs : s.stack with
  | nil => rw [exec_ret_of_stack_nil hs] at h; cases h
  | cons a rest => rw [exec_ret_of_stack_cons hs] at h; cases h; exact unchangedBut_jumpTo_setStack _ _ s

theorem unchangedBut_of_ldB {x : Reg} {s t : State} (h : exec (.ldB x) s = .next t) :
    unchangedBut [.pc, .byte (indexBase s)] s t := by
  obtain ⟨-, hdigits, -⟩ := decimalDigitsStored
  obtain ⟨hin, -⟩ := storeDigitsAtOne_next h
  obtain ⟨-, -, hframe⟩ := of_next (hdigits (reg s x) s (Nat.le_of_lt_succ hin)) h
  exact hframe

/-- A load of registers that answers has its whole run of bytes in memory. -/
theorem exec_loadRegs_in_range {x : Reg} {s t : State} (h : exec (.loadRegs x) s = .next t) : indexBase s + x.toNat ≤ 4095 := by
  by_contra hout
  rw [(loadRegistersFromIndex x s).2 (by omega)] at h
  cases h

/-- Settles O50, by the shape of each instruction: the frame of each shape leaves out only places that the table gives. -/
theorem execWritesOnlyItsPlaces : Obligations.ExecWritesOnlyItsPlaces := by
  unfold Obligations.ExecWritesOnlyItsPlaces
  intro i s t h
  cases i with
  | jp | jpV0 => cases h; exact frame_of_unchangedBut (unchangedBut_jumpTo _ s) (by simp [mayWrite])
  | call => cases h; exact frame_of_unchangedBut (unchangedBut_jumpTo_setStack _ _ s) (by simp [mayWrite])
  | ret => exact frame_of_unchangedBut (unchangedBut_of_ret h) (by simp [mayWrite])
  | seImm | sneImm | seReg | sneReg | skp | sknp =>
    cases h; exact frame_of_unchangedBut (unchangedBut_skipIf _ s) (by simp [mayWrite])
  | ldImm | addImm | ldReg | orReg | andReg | xorReg | ldVxDt =>
    exact frame_of_unchangedBut (unchangedBut_of_writeReg h) (by simp [mayWrite])
  | addReg | subReg | subnReg => exact frame_of_unchangedBut (unchangedBut_of_writeRegThenFlag h) (by simp [mayWrite, flagReg])
  | shr x y =>
    exact frame_of_unchangedBut (unchangedBut_of_writeFlagThenShift ((exec_shr x y s).symm.trans h)) (by simp [mayWrite, flagReg])
  | shl x y =>
    exact frame_of_unchangedBut (unchangedBut_of_writeFlagThenShift ((exec_shl x y s).symm.trans h)) (by simp [mayWrite, flagReg])
  | rnd x nn =>
    obtain ⟨-, -, -, -, hframe⟩ := of_next (randomUnderMask x nn s) h
    exact frame_of_unchangedBut hframe (by simp [mayWrite])
  | ldI | addI | ldF => cases h; exact frame_of_unchangedBut (unchangedBut_advance_setIndex _ s) (by simp [mayWrite])
  | ldDt x =>
    obtain ⟨-, -, hframe⟩ := of_next (delayTimerMoves x s).2 h
    exact frame_of_unchangedBut hframe (by simp [mayWrite])
  | ldSt x =>
    obtain ⟨-, -, -, hframe⟩ := of_next (speakerCountdownSet x s) h
    exact frame_of_unchangedBut hframe (by simp [mayWrite])
  | ldVxK => exact frame_of_unchangedBut (unchangedBut_of_waitForKey h) (by simp [mayWrite])
  | ldB => exact frame_of_unchangedBut (unchangedBut_of_ldB h) (by simp [mayWrite, digitSpan, params])
  | cls =>
    obtain ⟨-, -, -, hframe⟩ := of_next (clearDisplayBlanks s) h
    intro p hp
    simp only [mayWrite, not_or, not_exists] at hp
    obtain ⟨hpc, hd, hc⟩ := hp
    exact hframe p hpc hd hc
  | drw x y n =>
    obtain ⟨-, -, -, -, -, hframe⟩ := of_next ((drawSpriteByXor x y n s).1 (exec_drw_in_range h)) h
    intro p hp
    simp only [mayWrite, not_or, not_exists] at hp
    obtain ⟨hpc, hf, hd, hc⟩ := hp
    exact hframe p hpc hf hd hc
  | storeRegs x =>
    obtain ⟨hin, -⟩ := exec_storeRegs_next.mp h
    obtain ⟨-, -, hframe⟩ := of_next ((storeRegistersAtIndex x s).1 hin) h
    intro p hp
    simp only [mayWrite, not_or, not_exists, not_and] at hp
    obtain ⟨hpc, hbyte⟩ := hp
    exact hframe p hpc hbyte
  | loadRegs x =>
    obtain ⟨-, -, hframe⟩ := of_next ((loadRegistersFromIndex x s).1 (exec_loadRegs_in_range h)) h
    intro p hp
    simp only [mayWrite, not_or, not_exists, not_and] at hp
    obtain ⟨hpc, hreg⟩ := hp
    exact hframe p hpc hreg

/-! ### The devices (spec/10_state.md R26, R31, R32) -/

/-- The tables give the keyboard to no instruction. -/
theorem exec_keys {i : Instr} {s t : State} (h : exec i s = .next t) : t.keys = s.keys :=
  execWritesOnlyItsPlaces i s t h .keys (by cases i <;> simp [mayWrite])

/-- The tables give `sounding` to no instruction. -/
theorem exec_sounding {i : Instr} {s t : State} (h : exec i s = .next t) : t.sounding = s.sounding :=
  execWritesOnlyItsPlaces i s t h .sounding (by cases i <;> simp [mayWrite])

/-- The two instructions that may write `dirty` set it. -/
theorem exec_dirty {i : Instr} {s t : State} (h : exec i s = .next t) (hs : s.dirty = true) : t.dirty = true := by
  cases i with
  | cls => cases h; rfl
  | drw x y n =>
    obtain ⟨-, -, -, hdirty, -⟩ := of_next ((drawSpriteByXor x y n s).1 (exec_drw_in_range h)) h
    exact hdirty.mpr (.inl hs)
  | _ => exact (execWritesOnlyItsPlaces _ s t h .dirty (by simp [mayWrite])).trans hs

/-- Only `LD DT, Vx` may write the delay timer. -/
theorem exec_dt {i : Instr} {s t : State} (h : exec i s = .next t) (hne : t.dt ≠ s.dt) : ∃ x, i = .ldDt x ∧ t.dt = reg s x := by
  cases i with
  | ldDt x => cases h; exact ⟨x, rfl, rfl⟩
  | _ => exact absurd (execWritesOnlyItsPlaces _ s t h .delay (by simp [mayWrite])) hne

/-- Settles O51: each clause is the frame (O50) at one place; the fetched word is the encoding of what it decodes to (O9). -/
theorem stepLeavesDevicesAlone : Obligations.StepLeavesDevicesAlone := by
  unfold Obligations.StepLeavesDevicesAlone
  intro s t h
  obtain ⟨w, i, hw, hi, hexec⟩ := step_next h
  refine ⟨exec_keys hexec, exec_sounding hexec, exec_dirty hexec, fun hne => ?_⟩
  obtain ⟨x, rfl, hdt⟩ := exec_dt hexec hne
  exact ⟨x, by rw [hw, encodeOfDecode w _ hi], hdt⟩

/-! ### When an instruction raises (spec/60_exceptions.md R174) -/

/-- A result that faults exactly when a data byte lies above 4095 is as `dataFault` says. -/
theorem as_listed_of_dataFault {r : Result} {s : State} {len : Nat}
    (hin : len = 0 ∨ indexBase s + len - 1 ≤ 4095 → ∃ t, r = .next t)
    (hout : 0 < len ∧ 4095 < indexBase s + len - 1 → r = .fault (.addressOutOfRange (max (indexBase s) 4096))) :
    (∀ f, dataFault s len = some f → r = .fault f) ∧ (dataFault s len = none → ∃ t, r = .next t) := by
  unfold dataFault
  split
  · next hrange => exact ⟨fun f hf => Option.some.inj hf ▸ hout hrange, nofun⟩
  · next hrange => exact ⟨nofun, fun _ => hin (by omega)⟩

/-- Settles O54, by the table: `RET` by its stack, the four with data bytes by their range, and the rest always answer. -/
theorem execRaisesOnlyAsListed : Obligations.ExecRaisesOnlyAsListed := by
  unfold Obligations.ExecRaisesOnlyAsListed
  intro i s
  cases i with
  | ret =>
    cases hs : s.stack with
    | nil => simp [raises, hs, exec_ret_of_stack_nil hs]
    | cons a rest => simp [raises, hs, exec_ret_of_stack_cons hs]
  | drw x y n =>
    obtain ⟨hin, hout⟩ := drawSpriteByXor x y n s
    exact as_listed_of_dataFault (fun h => (hin h).imp fun _ ht => ht.1) fun h => hout (Nat.ne_of_gt h.1) h.2
  | ldB x =>
    obtain ⟨-, hin, -, hout, -⟩ := decimalDigitsStored
    refine as_listed_of_dataFault (len := 1) (fun h => (hin (reg s x) s (by omega)).imp fun _ ht => ht.1) fun h => ?_
    rw [Nat.max_eq_left (by omega)]
    exact hout (reg s x) s (by omega)
  | storeRegs x =>
    obtain ⟨hin, hout⟩ := storeRegistersAtIndex x s
    exact as_listed_of_dataFault (fun h => (hin (by omega)).imp fun _ ht => ht.1) fun h => hout (by omega)
  | loadRegs x =>
    obtain ⟨hin, hout⟩ := loadRegistersFromIndex x s
    exact as_listed_of_dataFault (fun h => (hin (by omega)).imp fun _ ht => ht.1) fun h => hout (by omega)
  | ldVxK x =>
    refine ⟨nofun, fun _ => ?_⟩
    cases hk : lastKey params.keyTiebreak s <;> simp [exec, execLdVxK, waitForKey, hk]
  | _ => exact ⟨nofun, fun _ => ⟨_, rfl⟩⟩

theorem exec_fault_iff {i : Instr} {s : State} {f : Fault} : exec i s = .fault f ↔ raises i s = some f := by
  obtain ⟨hraise, hanswer⟩ := execRaisesOnlyAsListed i s
  refine ⟨fun h => ?_, hraise f⟩
  cases hr : raises i s with
  | none =>
    obtain ⟨t, ht⟩ := hanswer hr
    cases ht.symm.trans h
  | some g =>
    cases (hraise g hr).symm.trans h
    rfl

/-! ### A raise repeats (R178) -/

theorem fetch_congr {s u : State} (hpc : u.pc = s.pc) (hmem : u.mem = s.mem) : fetch u = fetch s := by
  simp only [fetch, readByte, hpc, hmem]

theorem dataFault_congr {s u : State} (hi : u.i = s.i) (len : Nat) : dataFault u len = dataFault s len := by
  unfold dataFault indexBase
  rw [hi]

theorem raises_congr {s u : State} (hi : u.i = s.i) (hstack : u.stack = s.stack) (i : Instr) : raises i u = raises i s := by
  cases i with
  | ret => simp only [raises, hstack]
  | drw | ldB | storeRegs | loadRegs => exact dataFault_congr hi _
  | _ => rfl

/-- Whether a step raises, and what, depends on `pc`, memory, `I` and the stack alone. -/
theorem step_fault_congr {s u : State} {f : Fault} (hpc : u.pc = s.pc) (hmem : u.mem = s.mem) (hi : u.i = s.i)
    (hstack : u.stack = s.stack) (h : step s = .fault f) : step u = .fault f := by
  have hfetch := fetch_congr hpc hmem
  obtain hf | ⟨w, hw, hnone, rfl⟩ | ⟨w, i, hw, hdec, hexec⟩ := step_fault h
  · exact step_of_fetch_error (hfetch.trans hf)
  · exact step_of_decode_none (hfetch.trans hw) hnone
  · rw [step_of_fetch_decode (hfetch.trans hw) hdec, exec_fault_iff, raises_congr hi hstack]
    exact exec_fault_iff.mp hexec

/-- Settles O55: none of these commands changes what the raise depends on. -/
theorem raiseRepeats : Obligations.RaiseRepeats := by
  unfold Obligations.RaiseRepeats
  intro s f h
  refine ⟨?_, step_fault_congr (s := s) rfl rfl rfl rfl h, step_fault_congr (s := s) rfl rfl rfl rfl h, fun k => ⟨?_, ?_⟩⟩
  · rw [afterCommand_of_fault (c := .step) h]
    exact h
  · exact step_fault_congr (s := s) rfl rfl rfl rfl h
  · exact step_fault_congr (s := s) rfl rfl rfl rfl h

end Sys2Proof.Machine
end

section
/-! The invariant of the machine (spec/10_state.md R24, R25, R28, R32): each update keeps it, so every command does, at any
well-formed parameters. -/

namespace Sys2Proof.Machine

/-! ### The updates that reach a part of the invariant -/

theorem goodState_advance {s : State} (h : GoodState s) (hpc : s.pc.toNat ≤ 4094) : GoodState (advance s) := by
  obtain ⟨hmem, hkeys, hstack, -⟩ := h
  refine ⟨hmem, hkeys, hstack, ?_⟩
  rw [advance_pc_toNat]
  omega

theorem goodState_skipIf {s : State} (h : GoodState s) (hpc : s.pc.toNat ≤ 4094) (c : Bool) : GoodState (skipIf c s) := by
  obtain ⟨hmem, hkeys, hstack, -⟩ := h
  refine ⟨hmem, hkeys, hstack, ?_⟩
  rw [skipIf_pc_toNat Iff.rfl]
  split <;> omega

theorem goodState_jumpTo {s : State} (h : GoodState s) {a : Addr} (ha : a.toNat ≤ 0x10FE) : GoodState (jumpTo a s) := by
  obtain ⟨hmem, hkeys, hstack, -⟩ := h
  exact ⟨hmem, hkeys, hstack, ha⟩

theorem goodState_setStack {s : State} (h : GoodState s) {as : List Addr} (has : ∀ a ∈ as, a.toNat ≤ 4094) :
    GoodState (setStack as s) := by
  obtain ⟨hmem, hkeys, -, hpc⟩ := h
  exact ⟨hmem, hkeys, has, hpc⟩

theorem goodState_writeBytes {s : State} (h : GoodState s) {a : Nat} {bs : List Byte} (ha : a + bs.length ≤ memSize) :
    GoodState (writeBytes a bs s) := by
  obtain ⟨hmem, hrest⟩ := h
  have hwf := wf_writeBytes bs a s ha hmem
  rw [writeBytes_eq]
  exact ⟨hwf, hrest⟩

/-- Keys that stay distinct; the timers and `dirty` are no part of the invariant. -/
theorem goodState_keys {s : State} (h : GoodState s) {ks : List Key} (hks : ks.Nodup) : GoodState { s with keys := ks } := by
  obtain ⟨hmem, -, hrest⟩ := h
  exact ⟨hmem, hks, hrest⟩

/-! ### The execute phase at any parameters -/

theorem zextAddr_le (nnn : BitVec 12) : (zextAddr nnn).toNat ≤ 0x10FE := by
  rw [zextAddr_toNat]
  omega

/-- The largest program counter that an instruction computes, 0xFFF + 0xFF (R24). -/
theorem offsetTarget_le (nnn : BitVec 12) (s : State) : (offsetTarget nnn s).toNat ≤ 0x10FE := by
  rw [offsetTarget_toNat]
  omega

theorem goodState_of_storeAtIndex {bs : List Byte} {s t : State} (hs : GoodState s) (hpc : s.pc.toNat ≤ 4094)
    (h : storeAtIndex bs s = .next t) : GoodState t := by
  obtain ⟨hrange, rfl⟩ := storeAtIndex_next.mp h
  refine goodState_advance ?_ (by rwa [writeBytes_eq])
  obtain rfl | hle := hrange
  · exact hs
  · exact goodState_writeBytes hs hle

theorem goodState_of_storeDigits {q : BcdMode} {b : Byte} {s t : State} (hs : GoodState s) (hpc : s.pc.toNat ≤ 4094)
    (h : storeDigits q b s = .next t) : GoodState t := by
  cases q with
  | sameAddress =>
    obtain ⟨hlt, rfl⟩ := storeDigitsAtOne_next h
    have hstore : ∀ {u : State} (d : Byte), GoodState u → GoodState (writeByte (indexBase s) d u) := fun d hu =>
      goodState_writeBytes (bs := [d]) hu hlt
    exact goodState_advance (hstore _ (hstore _ (hstore _ hs))) hpc
  | threeAddress => exact goodState_of_storeAtIndex hs hpc h

theorem goodState_of_ret {s t : State} (hs : GoodState s) (h : exec .ret s = .next t) : GoodState t := by
  have ⟨_, _, hstack, _⟩ := hs
  cases hst : s.stack with
  | nil => rw [exec_ret_of_stack_nil hst] at h; cases h
  | cons a rest =>
    rw [exec_ret_of_stack_cons hst] at h
    cases h
    rw [hst, List.forall_mem_cons] at hstack
    obtain ⟨ha, hrest⟩ := hstack
    have hpc : (a + 2).toNat = (a.toNat + 2) % 65536 := BitVec.toNat_add a 2
    exact goodState_jumpTo (goodState_setStack hs hrest) (by omega)

theorem goodState_of_call {depth : Option Nat} {nnn : BitVec 12} {s t : State} (hs : GoodState s) (hpc : s.pc.toNat ≤ 4094)
    (h : callAtDepth depth nnn s = .next t) : GoodState t := by
  obtain ⟨rfl, -⟩ := callAtDepth_next h
  have ⟨_, _, hstack, _⟩ := hs
  exact goodState_jumpTo (goodState_setStack hs (List.forall_mem_cons.mpr ⟨hpc, hstack⟩)) (zextAddr_le nnn)

theorem goodState_of_draw {e : DrawEdge} {x y : Reg} {n : BitVec 4} {s t : State} (hs : GoodState s) (hpc : s.pc.toNat ≤ 4094)
    (h : drawAtIndex e x y n s = .next t) : GoodState t := by
  obtain ⟨bytes, -, rfl⟩ := drawAtIndex_next h
  rw [flipCells_eq]
  exact goodState_advance hs hpc

theorem goodState_of_waitForKey {k : KeyTiebreak} {x : Reg} {s t : State} (hs : GoodState s) (hpc : s.pc.toNat ≤ 4094)
    (h : waitForKey k x s = .next t) : GoodState t := by
  obtain ⟨_, -, rfl⟩ | ⟨-, rfl⟩ := waitForKey_next h
  · exact goodState_advance hs hpc
  · exact hs

theorem goodState_of_loadRegs {x : Reg} {s t : State} (hs : GoodState s) (hpc : s.pc.toNat ≤ 4094)
    (h : exec (.loadRegs x) s = .next t) : GoodState t := by
  cases hread : memRead s (indexBase s) (x.toNat + 1) with
  | error f => rw [exec_loadRegs_of_memRead_error hread] at h; cases h
  | ok bs =>
    rw [exec_loadRegs_of_memRead_ok hread, setRegsFrom_eq] at h
    cases h
    exact goodState_advance hs hpc

/-- From a `pc` that a fetch can use, every instruction keeps the invariant. -/
theorem execAt_goodState {c : Config} {i : Instr} {s t : State} (hs : GoodState s) (hpc : s.pc.toNat ≤ 4094)
    (h : execAt c i s = .next t) : GoodState t := by
  cases i with
  | jp nnn => cases h; exact goodState_jumpTo hs (zextAddr_le nnn)
  | jpV0 nnn => cases h; exact goodState_jumpTo hs (offsetTarget_le nnn s)
  | call => exact goodState_of_call hs hpc h
  | ret => exact goodState_of_ret hs h
  | seImm | sneImm | seReg | sneReg | skp | sknp => cases h; exact goodState_skipIf hs hpc _
  | ldB => exact goodState_of_storeDigits hs hpc h
  | storeRegs => exact goodState_of_storeAtIndex hs hpc h
  | loadRegs => exact goodState_of_loadRegs hs hpc h
  | drw => exact goodState_of_draw hs hpc h
  | ldVxK => exact goodState_of_waitForKey hs hpc h
  -- the rest write registers, `I`, timers, the display or the draws, none of them a part of the invariant
  | _ => cases h; exact goodState_advance hs hpc

/-! ### Commands and schedules -/

/-- A step that answers a next state fetched an opcode, decoded it, and executed the instruction, at any parameters. -/
theorem stepAt_next {c : Config} {s t : State} (h : stepAt c s = .next t) :
    ∃ w i, fetch s = .ok w ∧ decodeBy c.opcodeMap w = some i ∧ execAt c i s = .next t := by
  unfold stepAt at h
  split at h
  · cases h
  · next w hw =>
    split at h
    · cases h
    · next i hi => exact ⟨w, i, hw, hi, h⟩

theorem stepAt_goodState {c : Config} {s t : State} (hs : GoodState s) (h : stepAt c s = .next t) : GoodState t := by
  obtain ⟨w, i, hfetch, -, hexec⟩ := stepAt_next h
  obtain ⟨hpc, -⟩ := fetch_ok.mp hfetch
  exact execAt_goodState hs hpc hexec

theorem resetTo_goodState {c : Config} (hc : c.wf = true) {s : State} (hs : GoodState s) :
    GoodState (resetTo (State.resetAt c) s) := by
  obtain ⟨-, hkeys, -⟩ := hs
  simp only [Config.wf, Config.offsetInMemory, Bool.and_eq_true, decide_eq_true_eq] at hc
  obtain ⟨⟨-, hoffset⟩, -⟩ := hc
  refine ⟨wf_resetAt c, hkeys, List.forall_mem_nil _, ?_⟩
  rw [resetTo_pc, resetAt_pc]
  omega

theorem commandAt_goodState {c : Config} (hc : c.wf = true) {d : Command} {s t : State} (hs : GoodState s)
    (h : commandAt c d s = .next t) : GoodState t := by
  have ⟨_, hkeys, _⟩ := hs
  cases d with
  | step => exact stepAt_goodState hs h
  | tick | ackDisplay => cases h; exact hs
  | reset => cases h; exact resetTo_goodState hc hs
  | loadProgram image =>
    obtain ⟨hfit, rfl⟩ := loadImageAt_next.mp h
    exact goodState_writeBytes hs (imageFits_iff.mp hfit)
  | press k => cases h; exact goodState_keys hs (insertKey_nodup k hkeys)
  | release k => cases h; exact goodState_keys hs (removeKey_nodup k hkeys)

/-- Settles O48: at any well-formed parameters, and this machine is that at the defaults (O57). -/
theorem commandKeepsInvariant : Obligations.CommandKeepsInvariant := by
  unfold Obligations.CommandKeepsInvariant
  constructor
  · intro d s t hs h
    exact commandAt_goodState (c := params) rfl hs ((commandAt_params d s).trans h)
  · intro c hc d s t hs h
    exact commandAt_goodState hc hs h

/-- Settles O47: a step is one of the commands (O48). -/
theorem stepKeepsInvariant : Obligations.StepKeepsInvariant := by
  unfold Obligations.StepKeepsInvariant
  intro s t hs h
  exact commandKeepsInvariant.1 .step s t hs h

/-- Settles O3: nothing is listed, pressed or saved, and `pc` is the load offset. -/
theorem invariantAtReset : Obligations.InvariantAtReset := by
  unfold Obligations.InvariantAtReset
  exact ⟨wf_reset, List.nodup_nil, List.forall_mem_nil _, by decide⟩

/-- Settles O49: the invariant holds at construction (O3) and every command keeps it (O48). -/
theorem everyScheduleKeepsInvariant : Obligations.EveryScheduleKeepsInvariant := by
  unfold Obligations.EveryScheduleKeepsInvariant
  intro cs
  exact runCommands_induction commandKeepsInvariant.1 cs State.reset invariantAtReset

end Sys2Proof.Machine
end

section
/-! What no instruction reads (spec/10_state.md R32, R33): the outputs `ST`, `sounding` and `dirty`, and, but for `LD Vx, K`, the
order of the pressed keys. Both are said as one: a part of the state is put at fixed values, and execution is the same up to that
part. -/

namespace Sys2Proof.Machine

/-- A part of the state that instructions do not read. -/
inductive Unread where
  /-- `ST`, `sounding` and `dirty` -/
  | outputs
  /-- the order of the keys, to be replaced by this one -/
  | keyOrder (ks : List Key)

/-- The state with the part at fixed values. -/
def mask (u : Unread) (s : State) : State :=
  match u with
  | .outputs => { s with st := 0, sounding := false, dirty := false }
  | .keyOrder ks => { s with keys := ks }

/-- A result with its next state, if it has one, changed. -/
def mapNext (g : State → State) (r : Result) : Result :=
  match r with
  | .next t => .next (g t)
  | .fault f => .fault f
  | .refused q => .refused q

theorem mapNext_eq_next {g : State → State} {r : Result} {t : State} :
    mapNext g r = .next t ↔ ∃ t', r = .next t' ∧ g t' = t := by
  cases r <;> simp [mapNext]

theorem mapNext_eq_fault {g : State → State} {r : Result} {f : Fault} : mapNext g r = .fault f ↔ r = .fault f := by
  cases r <;> simp [mapNext]

/-! ### Reads and updates under a mask -/

theorem keyPressed_mask {u : Unread} {s : State} (hu : ∀ ks, u = .keyOrder ks → ks.Perm s.keys) (b : Byte) :
    keyPressed (mask u s) b = keyPressed s b := by
  cases u with
  | outputs => rfl
  | keyOrder ks => exact (hu ks rfl).any_eq

theorem mask_stack (u : Unread) (s : State) : (mask u s).stack = s.stack := by cases u <;> rfl

theorem indexBase_mask (u : Unread) (s : State) : indexBase (mask u s) = indexBase s := by cases u <;> rfl

theorem reg_mask (u : Unread) (s : State) (r : Reg) : reg (mask u s) r = reg s r := by cases u <;> rfl

theorem pixel_mask (u : Unread) (s : State) (px : Col) (py : Row) : pixel (mask u s) px py = pixel s px py := by cases u <;> rfl

theorem memRead_mask (u : Unread) (s : State) (a len : Nat) : memRead (mask u s) a len = memRead s a len := by cases u <;> rfl

theorem regsUpTo_mask (u : Unread) (s : State) (x : Reg) : regsUpTo (mask u s) x = regsUpTo s x := by cases u <;> rfl

theorem fetch_mask (u : Unread) (s : State) : fetch (mask u s) = fetch s := by cases u <;> rfl

/-- An update that does not read the masked part takes states that are alike under the mask to states that are. -/
theorem mask_congr {u : Unread} {g : State → State} (hg : ∀ s, mask u (g (mask u s)) = mask u (g s)) {s s' : State}
    (h : mask u s = mask u s') : mask u (g s) = mask u (g s') := by
  rw [← hg s, h, hg s']

theorem mask_mask (u : Unread) (s : State) : mask u (mask u s) = mask u s := by cases u <;> rfl

theorem mask_flipPixel (u : Unread) (px : Col) (py : Row) (s : State) :
    mask u (flipPixel px py (mask u s)) = mask u (flipPixel px py s) := by
  cases u <;> rfl

theorem mask_advance (u : Unread) (s : State) : mask u (advance (mask u s)) = mask u (advance s) := by cases u <;> rfl

theorem mask_advance_setReg {u : Unread} {s s' : State} (h : mask u s = mask u s') (r : Reg) (b : Byte) :
    mask u (advance (setReg r b s)) = mask u (advance (setReg r b s')) := by
  refine mask_congr (g := fun t => advance (setReg r b t)) (fun t => ?_) h
  cases u <;> rfl

theorem writeBytes_mask (u : Unread) (bs : List Byte) : ∀ (a : Nat) (s : State),
    writeBytes a bs (mask u s) = mask u (writeBytes a bs s) := by
  have hwrite : ∀ a b s, writeByte a b (mask u s) = mask u (writeByte a b s) := by cases u <;> exact fun _ _ _ => rfl
  induction bs with
  | nil => intro a s; rfl
  | cons b rest ih => intro a s; rw [writeBytes, hwrite, ih]; rfl

theorem setRegsFrom_mask (u : Unread) (bs : List Byte) : ∀ (k : Nat) (s : State),
    setRegsFrom k bs (mask u s) = mask u (setRegsFrom k bs s) := by
  have hset : ∀ r b s, setReg r b (mask u s) = mask u (setReg r b s) := by cases u <;> exact fun _ _ _ => rfl
  induction bs with
  | nil => intro k s; rfl
  | cons b rest ih => intro k s; rw [setRegsFrom, hset, ih]; rfl

/-- Flips of the same cells report the same hit and leave states that are alike again. -/
theorem flipCells_mask (u : Unread) (cells : List (Col × Row)) : ∀ (hit : Bool) (s s' : State), mask u s = mask u s' →
    mask u (flipCells cells hit s).1 = mask u (flipCells cells hit s').1 ∧
      (flipCells cells hit s).2 = (flipCells cells hit s').2 := by
  induction cells with
  | nil => intro hit s s' h; exact ⟨h, rfl⟩
  | cons c rest ih =>
    intro hit s s' h
    obtain ⟨px, py⟩ := c
    have hpixel : pixel s px py = pixel s' px py := by rw [← pixel_mask u, h, pixel_mask]
    rw [flipCells, flipCells, hpixel]
    exact ih _ _ _ (mask_congr (mask_flipPixel u px py) h)

/-! ### The instructions that branch, or run over a list -/

theorem mask_ret (u : Unread) (s : State) : mapNext (mask u) (exec .ret (mask u s)) = mapNext (mask u) (exec .ret s) := by
  have hmask := mask_stack u s
  cases hs : s.stack with
  | nil => rw [exec_ret_of_stack_nil hs, exec_ret_of_stack_nil (hmask.trans hs)]
  | cons a rest =>
    rw [exec_ret_of_stack_cons hs, exec_ret_of_stack_cons (hmask.trans hs)]
    cases u <;> rfl

theorem mask_drw (u : Unread) (x y : Reg) (n : BitVec 4) (s : State) :
    mapNext (mask u) (exec (.drw x y n) (mask u s)) = mapNext (mask u) (exec (.drw x y n) s) := by
  have hmask : memRead (mask u s) (indexBase (mask u s)) n.toNat = memRead s (indexBase s) n.toNat := by
    rw [indexBase_mask, memRead_mask]
  cases hread : memRead s (indexBase s) n.toNat with
  | error f => rw [exec_drw_of_memRead_error hread, exec_drw_of_memRead_error (hmask.trans hread)]
  | ok bytes =>
    rw [exec_drw_of_memRead_ok hread, exec_drw_of_memRead_ok (hmask.trans hread), reg_mask, reg_mask]
    obtain ⟨hdrawn, hhit⟩ := flipCells_mask u (spriteCells params.drawEdge (reg s x).toNat (reg s y).toNat 0 bytes) false
      (mask u s) s (mask_mask u s)
    rw [drawSprite, drawSprite, hhit]
    exact congrArg Host.Outcome.next (mask_advance_setReg hdrawn flagReg _)

theorem mask_storeAtIndex (u : Unread) (bs : List Byte) (s : State) :
    mapNext (mask u) (storeAtIndex bs (mask u s)) = mapNext (mask u) (storeAtIndex bs s) := by
  rw [storeAtIndex, storeAtIndex, memWrite, memWrite, indexBase_mask, writeBytes_mask]
  cases rangeFault (indexBase s) bs.length with
  | some f => rfl
  | none => exact congrArg Host.Outcome.next (mask_advance u _)

theorem mask_ldB (u : Unread) (x : Reg) (s : State) :
    mapNext (mask u) (exec (.ldB x) (mask u s)) = mapNext (mask u) (exec (.ldB x) s) := by
  show mapNext (mask u) (storeDigitsAtOne (reg (mask u s) x) (mask u s)) = mapNext (mask u) (storeDigitsAtOne (reg s x) s)
  rw [reg_mask]
  obtain hlt | hle := Nat.lt_or_ge (indexBase s) memSize
  · rw [storeDigitsAtOne_of_lt hlt, storeDigitsAtOne_of_lt (by rwa [indexBase_mask])]
    cases u <;> rfl
  · rw [storeDigitsAtOne_of_le hle, storeDigitsAtOne_of_le (by rwa [indexBase_mask]), indexBase_mask]

theorem mask_loadRegs (u : Unread) (x : Reg) (s : State) :
    mapNext (mask u) (exec (.loadRegs x) (mask u s)) = mapNext (mask u) (exec (.loadRegs x) s) := by
  have hmask : memRead (mask u s) (indexBase (mask u s)) (x.toNat + 1) = memRead s (indexBase s) (x.toNat + 1) := by
    rw [indexBase_mask, memRead_mask]
  cases hread : memRead s (indexBase s) (x.toNat + 1) with
  | error f => rw [exec_loadRegs_of_memRead_error hread, exec_loadRegs_of_memRead_error (hmask.trans hread)]
  | ok bs =>
    rw [exec_loadRegs_of_memRead_ok hread, exec_loadRegs_of_memRead_ok (hmask.trans hread), setRegsFrom_mask]
    exact congrArg Host.Outcome.next (mask_advance u _)

/-- The wait for a key reads the order of the keys, but not the outputs. -/
theorem mask_waitForKey (k : KeyTiebreak) (x : Reg) (s : State) :
    mapNext (mask .outputs) (waitForKey k x (mask .outputs s)) = mapNext (mask .outputs) (waitForKey k x s) := by
  have hmask : lastKey k (mask .outputs s) = lastKey k s := rfl
  rw [waitForKey, waitForKey, hmask]
  cases lastKey k s <;> rfl

/-! ### Every instruction -/

/-- Execution does not depend on the masked part, up to that part of the next state. -/
theorem mask_exec {u : Unread} {i : Instr} {s : State}
    (hu : ∀ ks, u = .keyOrder ks → ks.Perm s.keys ∧ ∀ x, i ≠ .ldVxK x) :
    mapNext (mask u) (exec i (mask u s)) = mapNext (mask u) (exec i s) := by
  have hkey := keyPressed_mask fun ks h => (hu ks h).1
  cases i with
  | ret => exact mask_ret u s
  | drw x y n => exact mask_drw u x y n s
  | ldB x => exact mask_ldB u x s
  | storeRegs x => rw [exec_storeRegs, exec_storeRegs, regsUpTo_mask, mask_storeAtIndex]
  | loadRegs x => exact mask_loadRegs u x s
  | skp x => rw [exec_skp, exec_skp, hkey, reg_mask]; cases u <;> rfl
  | sknp x => rw [exec_sknp, exec_sknp, hkey, reg_mask]; cases u <;> rfl
  | ldVxK x =>
    cases u with
    | outputs => exact mask_waitForKey _ x s
    | keyOrder ks => exact absurd rfl ((hu ks rfl).2 x)
  -- the rest are one update of the state, which reads nothing of the masked part
  | _ => cases u <;> rfl

theorem mask_step_outputs (s : State) :
    mapNext (mask .outputs) (step (mask .outputs s)) = mapNext (mask .outputs) (step s) := by
  have hfetch := fetch_mask .outputs s
  cases hw : fetch s with
  | error f => rw [step_of_fetch_error hw, step_of_fetch_error (hfetch.trans hw)]
  | ok w =>
    cases hi : decodeWord w with
    | none => rw [step_of_decode_none hw hi, step_of_decode_none (hfetch.trans hw) hi]
    | some i =>
      rw [step_of_fetch_decode hw hi, step_of_fetch_decode (hfetch.trans hw) hi]
      exact mask_exec nofun

/-! ### The two statements -/

/-- A state with the outputs of `t`. -/
def withOutputsOf (t s : State) : State := { s with st := t.st, sounding := t.sounding, dirty := t.dirty }

/-- Two states agree in everything but the outputs exactly if they are the same state once these are put at fixed values. -/
theorem sameButOutputs_iff {s t : State} : sameButOutputs s t ↔ mask .outputs t = mask .outputs s :=
  Iff.intro (congrArg (mask .outputs) : t = withOutputsOf t s → mask .outputs t = mask .outputs s) (congrArg (withOutputsOf t))

/-- Settles O52: both steps are, up to the outputs, the step from the state with the outputs at fixed values. -/
theorem outputsAreInvisible : Obligations.OutputsAreInvisible := by
  unfold Obligations.OutputsAreInvisible
  intro s s' h
  have hstep : mapNext (mask .outputs) (step s') = mapNext (mask .outputs) (step s) := by
    rw [← mask_step_outputs s', sameButOutputs_iff.mp h, mask_step_outputs s]
  constructor
  · intro t ht
    rw [ht] at hstep
    obtain ⟨t', ht', hmask⟩ := mapNext_eq_next.mp hstep
    exact ⟨t', ht', sameButOutputs_iff.mpr hmask⟩
  · intro f hf
    rw [hf] at hstep
    exact mapNext_eq_fault.mp hstep

/-- Settles O53: up to the order of the keys both executions agree, and neither changes the order it was given (O50). -/
theorem keyOrderSeenOnlyByWait : Obligations.KeyOrderSeenOnlyByWait := by
  unfold Obligations.KeyOrderSeenOnlyByWait
  intro i s ks hperm hwait
  have hu : ∀ ks', Unread.keyOrder ks = .keyOrder ks' → ks'.Perm s.keys ∧ ∀ x, i ≠ .ldVxK x := by
    rintro _ ⟨⟩
    exact ⟨hperm, hwait⟩
  have hexec := mask_exec hu
  constructor
  · intro t ht
    rw [ht] at hexec
    obtain ⟨t', ht', hmask⟩ := mapNext_eq_next.mp hexec
    have hkeys : t'.keys = ks := exec_keys ht'
    have hsame : mask (.keyOrder ks) t' = t' := by rw [← hkeys]; rfl
    rw [hsame] at hmask
    exact ht'.trans (congrArg Host.Outcome.next hmask)
  · intro f hf
    rw [hf] at hexec
    exact mapNext_eq_fault.mp hexec

end Sys2Proof.Machine
end
